-- ==== Sys2Proof/Word.lean ====
section
/-! DEFINITION. The machine's value types: bytes, 16-bit words, nibbles, 12-bit addresses, and the indexes of
registers and keys (spec/00_scope.md §5, R4; spec/10_state.md R10, R16). Every value is unsigned. -/

namespace Sys2Proof

/-- 8 bits: a register's contents, a byte of memory, a timer (R4 `REG_WIDTH`, `TIMER_WIDTH`). -/
abbrev Byte := BitVec 8

/-- 16 bits: an instruction word, PC, I, a return address (R4 `PC_WIDTH`, `I_WIDTH`, `STACK_ENTRY_WIDTH`). -/
abbrev Word := BitVec 16

/-- 4 bits: a field of an instruction word (R62). -/
abbrev Nibble := BitVec 4

/-- The 12-bit address field `nnn` (R63). -/
abbrev Addr12 := BitVec 12

/-- The number of one of the 16 registers V0 to VF (R10). -/
abbrev Reg := Fin 16

/-- The number of one of the 16 keys 0x0 to 0xF (R16). -/
abbrev Key := Fin 16

/-- VF, the register that is also the flag (R11). -/
abbrev VF : Reg := 15

/-- `zext_16` of a byte (00_scope.md §5). -/
def zext16 (b : Byte) : Word := b.setWidth 16

/-- `zext_16` of a 12-bit address (R63: "Where nnn is written to a 16-bit register (PC, I) it is zero-extended"). -/
def addr16 (a : Addr12) : Word := a.setWidth 16

end Sys2Proof
end

