-- ==== Sys2Proof/Syntax.lean ====
section
/-! DEFINITION. The instructions: one constructor per row of spec/30_encoding.md R67 (spec/opcode_table.json), in its
order. `x`, `y` name registers, `kk` is a byte, `nnn` a 12-bit address, `n` a nibble (R62, R63). -/

namespace Sys2Proof

inductive Instr where
  /-- 00E0 -/
  | cls
  /-- 00EE -/
  | ret
  /-- 1nnn -/
  | jp (nnn : Addr12)
  /-- 2nnn -/
  | call (nnn : Addr12)
  /-- 3xkk -/
  | seI (x : Reg) (kk : Byte)
  /-- 4xkk -/
  | sneI (x : Reg) (kk : Byte)
  /-- 5xy0 -/
  | seR (x y : Reg)
  /-- 9xy0 -/
  | sneR (x y : Reg)
  /-- 6xkk -/
  | ldI (x : Reg) (kk : Byte)
  /-- 7xkk -/
  | addI (x : Reg) (kk : Byte)
  /-- 8xy0 -/
  | ldR (x y : Reg)
  /-- 8xy1 -/
  | orR (x y : Reg)
  /-- 8xy2 -/
  | andR (x y : Reg)
  /-- 8xy3 -/
  | xorR (x y : Reg)
  /-- 8xy4 -/
  | addR (x y : Reg)
  /-- 8xy5 -/
  | sub (x y : Reg)
  /-- 8xy6 -/
  | shr (x y : Reg)
  /-- 8xy7 -/
  | subn (x y : Reg)
  /-- 8xyE -/
  | shl (x y : Reg)
  /-- Annn -/
  | ldIdx (nnn : Addr12)
  /-- Bnnn -/
  | jpV0 (nnn : Addr12)
  /-- Cxkk -/
  | rnd (x : Reg) (kk : Byte)
  /-- Dxyn -/
  | drw (x y : Reg) (n : Nibble)
  /-- Ex9E -/
  | skp (x : Reg)
  /-- ExA1 -/
  | sknp (x : Reg)
  /-- Fx07 -/
  | ldVxDt (x : Reg)
  /-- Fx15 -/
  | ldDtVx (x : Reg)
  /-- Fx18 -/
  | ldStVx (x : Reg)
  /-- Fx0A -/
  | ldVxK (x : Reg)
  /-- Fx1E -/
  | addIdx (x : Reg)
  /-- Fx29 -/
  | ldF (x : Reg)
  /-- Fx33 -/
  | ldB (x : Reg)
  /-- Fx55 -/
  | stRegs (x : Reg)
  /-- Fx65 -/
  | ldRegs (x : Reg)
  deriving DecidableEq, Repr

/-- The mnemonic of R67's table. -/
def Instr.mnemonic : Instr → String
  | .cls => "CLS"
  | .ret => "RET"
  | .jp _ => "JP"
  | .call _ => "CALL"
  | .seI _ _ => "SE_I"
  | .sneI _ _ => "SNE_I"
  | .seR _ _ => "SE_R"
  | .sneR _ _ => "SNE_R"
  | .ldI _ _ => "LD_I"
  | .addI _ _ => "ADD_I"
  | .ldR _ _ => "LD_R"
  | .orR _ _ => "OR"
  | .andR _ _ => "AND"
  | .xorR _ _ => "XOR"
  | .addR _ _ => "ADD_R"
  | .sub _ _ => "SUB"
  | .shr _ _ => "SHR"
  | .subn _ _ => "SUBN"
  | .shl _ _ => "SHL"
  | .ldIdx _ => "LD_IDX"
  | .jpV0 _ => "JP_V0"
  | .rnd _ _ => "RND"
  | .drw _ _ _ => "DRW"
  | .skp _ => "SKP"
  | .sknp _ => "SKNP"
  | .ldVxDt _ => "LD_VX_DT"
  | .ldDtVx _ => "LD_DT_VX"
  | .ldStVx _ => "LD_ST_VX"
  | .ldVxK _ => "LD_VX_K"
  | .addIdx _ => "ADD_IDX"
  | .ldF _ => "LD_F"
  | .ldB _ => "LD_B"
  | .stRegs _ => "ST_REGS"
  | .ldRegs _ => "LD_REGS"

end Sys2Proof
end

