-- ==== Sys2Proof/WellFormed.lean ====
section
/-! DEFINITION. What makes an instruction term well formed, before it is a word: its nibble fields are in range (R62)
and select a row of the opcode map (spec/30_encoding.md R66, R67). The typed operands of `Instr` cannot be out of
range and R64 reserves no operand value, so every `Instr` passes the check (Laws/Encoding.lean proves it). -/

namespace Sys2Proof

/-- One row of R67's table: a word `w` selects it when `w &&& mask = pattern` (R66). -/
structure OpcodeRow where
  mnemonic : String
  pattern : Word
  mask : Word
  deriving DecidableEq, Repr

/-- R66: "a word w selects the instruction of a row when `w & mask == match`". -/
def OpcodeRow.selects (r : OpcodeRow) (w : Word) : Bool := w &&& r.mask == r.pattern

/-- Rows 1 to 8 of R67. -/
def opcodeRowsControl : List OpcodeRow := [
  ⟨"CLS", 0x00E0, 0xFFFF⟩,
  ⟨"RET", 0x00EE, 0xFFFF⟩,
  ⟨"JP", 0x1000, 0xF000⟩,
  ⟨"CALL", 0x2000, 0xF000⟩,
  ⟨"SE_I", 0x3000, 0xF000⟩,
  ⟨"SNE_I", 0x4000, 0xF000⟩,
  ⟨"SE_R", 0x5000, 0xF00F⟩,
  ⟨"SNE_R", 0x9000, 0xF00F⟩]

/-- Rows 9 to 19 of R67. -/
def opcodeRowsAlu : List OpcodeRow := [
  ⟨"LD_I", 0x6000, 0xF000⟩,
  ⟨"ADD_I", 0x7000, 0xF000⟩,
  ⟨"LD_R", 0x8000, 0xF00F⟩,
  ⟨"OR", 0x8001, 0xF00F⟩,
  ⟨"AND", 0x8002, 0xF00F⟩,
  ⟨"XOR", 0x8003, 0xF00F⟩,
  ⟨"ADD_R", 0x8004, 0xF00F⟩,
  ⟨"SUB", 0x8005, 0xF00F⟩,
  ⟨"SHR", 0x8006, 0xF00F⟩,
  ⟨"SUBN", 0x8007, 0xF00F⟩,
  ⟨"SHL", 0x800E, 0xF00F⟩]

/-- Rows 20 to 25 of R67. -/
def opcodeRowsMisc : List OpcodeRow := [
  ⟨"LD_IDX", 0xA000, 0xF000⟩,
  ⟨"JP_V0", 0xB000, 0xF000⟩,
  ⟨"RND", 0xC000, 0xF000⟩,
  ⟨"DRW", 0xD000, 0xF000⟩,
  ⟨"SKP", 0xE09E, 0xF0FF⟩,
  ⟨"SKNP", 0xE0A1, 0xF0FF⟩]

/-- Rows 26 to 34 of R67. -/
def opcodeRowsF : List OpcodeRow := [
  ⟨"LD_VX_DT", 0xF007, 0xF0FF⟩,
  ⟨"LD_DT_VX", 0xF015, 0xF0FF⟩,
  ⟨"LD_ST_VX", 0xF018, 0xF0FF⟩,
  ⟨"LD_VX_K", 0xF00A, 0xF0FF⟩,
  ⟨"ADD_IDX", 0xF01E, 0xF0FF⟩,
  ⟨"LD_F", 0xF029, 0xF0FF⟩,
  ⟨"LD_B", 0xF033, 0xF0FF⟩,
  ⟨"ST_REGS", 0xF055, 0xF0FF⟩,
  ⟨"LD_REGS", 0xF065, 0xF0FF⟩]

/-- The complete opcode map, the 34 rows of R67 in its order. -/
def opcodeTable : List OpcodeRow :=
  opcodeRowsControl ++ opcodeRowsAlu ++ opcodeRowsMisc ++ opcodeRowsF

/-- The four fields of R62 as plain numbers, the raw term an assembler would build. -/
structure RawFields where
  cat : Nat
  x : Nat
  y : Nat
  n : Nat
  deriving DecidableEq, Repr

/-- The word the four fields spell (R62: `cat` most significant). -/
def RawFields.word (f : RawFields) : Word :=
  BitVec.ofNat 16 (((f.cat * 16 + f.x) * 16 + f.y) * 16 + f.n)

/-- Each field fits its four bits (R62). -/
def RawFields.inRange (f : RawFields) : Bool :=
  f.cat < 16 && f.x < 16 && f.y < 16 && f.n < 16

/-- Some row of the opcode map is selected (R66); otherwise the word is unsupported (R70). -/
def RawFields.supported (f : RawFields) : Bool :=
  opcodeTable.any (·.selects f.word)

/-- The well-formedness check. -/
def RawFields.wellFormed (f : RawFields) : Bool := f.inRange && f.supported

end Sys2Proof
end

