-- ==== Sys2Proof/Decode.lean ====
section
/-! DEFINITION. The decoder, total on any bytes and rejecting by name, and after it the encoder
(spec/30_encoding.md R60 to R70). -/

namespace Sys2Proof

/-! ## Fields of a word (R62, R63) -/

/-- Bits 15:12, "category". -/
def catOf (w : Word) : Nibble := w.extractLsb' 12 4

/-- The index a nibble names (R64: all 16 values are legal). -/
def indexOf (b : Nibble) : Fin 16 := ⟨b.toNat, b.isLt⟩

/-- Bits 11:8 as a register. -/
def xOf (w : Word) : Reg := indexOf (w.extractLsb' 8 4)

/-- Bits 7:4 as a register. -/
def yOf (w : Word) : Reg := indexOf (w.extractLsb' 4 4)

/-- Bits 3:0. -/
def nOf (w : Word) : Nibble := w.extractLsb' 0 4

/-- Bits 7:0. -/
def kkOf (w : Word) : Byte := w.extractLsb' 0 8

/-- Bits 11:0. -/
def nnnOf (w : Word) : Addr12 := w.extractLsb' 0 12

/-! ## Decoding -/

/-- Why a decoder gives no instruction. -/
inductive DecodeReject where
  /-- Fewer than two bytes were given (R60: every instruction is two bytes). -/
  | truncated
  /-- The word matches no row of R67 (R70); the cycle then runs UNSUPPORTED (R84). -/
  | unsupported (w : Word)
  deriving DecidableEq, Repr

/-- Category 0: the whole word decides (R67's second table). -/
def decode0 (w : Word) : Option Instr :=
  if w = 0x00E0 then some .cls else if w = 0x00EE then some .ret else none

/-- Category 8: `n` selects (R67's second table). -/
def decode8 (x y : Reg) (n : Nibble) : Option Instr :=
  match n.toNat with
  | 0x0 => some (.ldR x y)
  | 0x1 => some (.orR x y)
  | 0x2 => some (.andR x y)
  | 0x3 => some (.xorR x y)
  | 0x4 => some (.addR x y)
  | 0x5 => some (.sub x y)
  | 0x6 => some (.shr x y)
  | 0x7 => some (.subn x y)
  | 0xE => some (.shl x y)
  | _ => none

/-- Category E: the low byte selects (R67's second table). -/
def decodeE (x : Reg) (kk : Byte) : Option Instr :=
  if kk = 0x9E then some (.skp x) else if kk = 0xA1 then some (.sknp x) else none

/-- Category F: the low byte selects (R67's second table). -/
def decodeF (x : Reg) (kk : Byte) : Option Instr :=
  if kk = 0x07 then some (.ldVxDt x)
  else if kk = 0x0A then some (.ldVxK x)
  else if kk = 0x15 then some (.ldDtVx x)
  else if kk = 0x18 then some (.ldStVx x)
  else if kk = 0x1E then some (.addIdx x)
  else if kk = 0x29 then some (.ldF x)
  else if kk = 0x33 then some (.ldB x)
  else if kk = 0x55 then some (.stRegs x)
  else if kk = 0x65 then some (.ldRegs x)
  else none

/-- The instruction of a word, none where it matches no row: R67's map by category. -/
def decode? (w : Word) : Option Instr :=
  match (catOf w).toNat with
  | 0x0 => decode0 w
  | 0x1 => some (.jp (nnnOf w))
  | 0x2 => some (.call (nnnOf w))
  | 0x3 => some (.seI (xOf w) (kkOf w))
  | 0x4 => some (.sneI (xOf w) (kkOf w))
  | 0x5 => if nOf w = 0 then some (.seR (xOf w) (yOf w)) else none
  | 0x6 => some (.ldI (xOf w) (kkOf w))
  | 0x7 => some (.addI (xOf w) (kkOf w))
  | 0x8 => decode8 (xOf w) (yOf w) (nOf w)
  | 0x9 => if nOf w = 0 then some (.sneR (xOf w) (yOf w)) else none
  | 0xA => some (.ldIdx (nnnOf w))
  | 0xB => some (.jpV0 (nnnOf w))
  | 0xC => some (.rnd (xOf w) (kkOf w))
  | 0xD => some (.drw (xOf w) (yOf w) (nOf w))
  | 0xE => decodeE (xOf w) (kkOf w)
  | _ => decodeF (xOf w) (kkOf w)

/-- The decoder of one word, rejecting by name (R66, R70). -/
def decodeWord (w : Word) : Except DecodeReject Instr :=
  match decode? w with
  | some i => .ok i
  | none => .error (.unsupported w)

/-- The word two bytes of memory spell, the byte at the lower address more significant (R60). -/
def wordOfBytes (hi lo : Byte) : Word := hi ++ lo

/-- Bits 15:8, the byte at the lower address (R60). -/
def highByte (w : Word) : Byte := w.extractLsb' 8 8

/-- Bits 7:0, the byte at the higher address (R60). -/
def lowByte (w : Word) : Byte := w.extractLsb' 0 8

/-- The decoder of bytes in memory order: one instruction and the bytes after it. -/
def decodeBytes : List Byte → Except DecodeReject (Instr × List Byte)
  | hi :: lo :: rest =>
    match decodeWord (wordOfBytes hi lo) with
    | .ok i => .ok (i, rest)
    | .error e => .error e
  | _ => .error .truncated

/-! ## Encoding, from R65's formats and R67's patterns -/

/-- The nibble that names a register (R64). -/
def nibbleOf (r : Fin 16) : Nibble := ⟨r⟩

/-- Format NNN. -/
def formatNNN (cat : Nibble) (nnn : Addr12) : Word := cat ++ nnn

/-- Format XKK, and format X with the low byte fixed. -/
def formatXKK (cat : Nibble) (x : Reg) (kk : Byte) : Word := cat ++ (nibbleOf x ++ kk)

/-- Formats XYN and XY (n fixed). -/
def formatXYN (cat : Nibble) (x y : Reg) (n : Nibble) : Word :=
  cat ++ (nibbleOf x ++ (nibbleOf y ++ n))

/-- The word of an instruction (R67). -/
def encode : Instr → Word
  | .cls => 0x00E0
  | .ret => 0x00EE
  | .jp nnn => formatNNN 0x1 nnn
  | .call nnn => formatNNN 0x2 nnn
  | .seI x kk => formatXKK 0x3 x kk
  | .sneI x kk => formatXKK 0x4 x kk
  | .seR x y => formatXYN 0x5 x y 0x0
  | .sneR x y => formatXYN 0x9 x y 0x0
  | .ldI x kk => formatXKK 0x6 x kk
  | .addI x kk => formatXKK 0x7 x kk
  | .ldR x y => formatXYN 0x8 x y 0x0
  | .orR x y => formatXYN 0x8 x y 0x1
  | .andR x y => formatXYN 0x8 x y 0x2
  | .xorR x y => formatXYN 0x8 x y 0x3
  | .addR x y => formatXYN 0x8 x y 0x4
  | .sub x y => formatXYN 0x8 x y 0x5
  | .shr x y => formatXYN 0x8 x y 0x6
  | .subn x y => formatXYN 0x8 x y 0x7
  | .shl x y => formatXYN 0x8 x y 0xE
  | .ldIdx nnn => formatNNN 0xA nnn
  | .jpV0 nnn => formatNNN 0xB nnn
  | .rnd x kk => formatXKK 0xC x kk
  | .drw x y n => formatXYN 0xD x y n
  | .skp x => formatXKK 0xE x 0x9E
  | .sknp x => formatXKK 0xE x 0xA1
  | .ldVxDt x => formatXKK 0xF x 0x07
  | .ldDtVx x => formatXKK 0xF x 0x15
  | .ldStVx x => formatXKK 0xF x 0x18
  | .ldVxK x => formatXKK 0xF x 0x0A
  | .addIdx x => formatXKK 0xF x 0x1E
  | .ldF x => formatXKK 0xF x 0x29
  | .ldB x => formatXKK 0xF x 0x33
  | .stRegs x => formatXKK 0xF x 0x55
  | .ldRegs x => formatXKK 0xF x 0x65

/-- The bytes of an instruction in memory order (R60). -/
def encodeBytes (i : Instr) : List Byte := [highByte (encode i), lowByte (encode i)]

/-- The raw fields of a word (R62). -/
def rawFieldsOf (w : Word) : RawFields :=
  ⟨(catOf w).toNat, (xOf w).val, (yOf w).val, (nOf w).toNat⟩

/-- An instruction is well formed when the fields it is encoded to are. -/
def Instr.wellFormed (i : Instr) : Bool := (rawFieldsOf (encode i)).wellFormed

/-! ## The host's reading of a table word -/

/-- The one instruction word whose bits, numbered as spec/opcode_table.json numbers them, are the low `nbits` bits of
`w`; every row of the table has 16. -/
def tableWord (nbits w : Nat) : Word := BitVec.ofNat 16 (w % 2 ^ nbits)

/-- What the decoder reads from that word, laid out as memory stores it. -/
def decodeTableWord (nbits w : Nat) : Option Instr :=
  match decodeBytes [highByte (tableWord nbits w), lowByte (tableWord nbits w)] with
  | .ok (i, _) => some i
  | .error _ => none

end Sys2Proof
end

