-- ==== Sys2Proof/Config.lean ====
section
/-! DEFINITION. What is fixed for the life of one machine (spec/00_scope.md R4) and the free value RND.
The parameters R4 marks OPEN are fields of `Config`; a machine carries its own (Log 1). The constants of R4 are
definitions. Defaults are in Machine/Defaults.lean. -/

namespace Sys2Proof

/-- `MEM_SIZE`: addresses 0 to 4095 exist (R4, R40). -/
abbrev memSize : Nat := 4096

/-- `PROG_BASE`: where `load` puts a program and where PC starts (R4, R13). -/
abbrev progBase : Nat := 0x200

/-- `ROM_MAX` = `MEM_SIZE` − `PROG_BASE` (R4, R183). -/
abbrev romMax : Nat := 3584

/-- `FONT_BASE` (R4, R41). -/
abbrev fontBase : Nat := 0x050

/-- `FONT_GLYPH_BYTES` (R4). -/
abbrev fontGlyphBytes : Nat := 5

/-- `FONT_BYTES` (R4). -/
abbrev fontBytes : Nat := 80

/-- `FONT_DATA`: the 80 bytes that reset puts at `FONT_BASE` (R4, R181). -/
abbrev Font := Vector Byte fontBytes

/-- The OPEN parameters of R4 that a machine holds for life. -/
structure Config where
  /-- `DISPLAY_W`, columns of the display (R130). -/
  displayW : Nat
  /-- `DISPLAY_H`, rows of the display (R130). -/
  displayH : Nat
  /-- `STACK_LIMIT`: none is unbounded (R14, R166). -/
  stackLimit : Option Nat
  /-- `FONT_DATA` (R181). -/
  font : Font
  deriving DecidableEq, Repr

/-- R4's limits on the parameters: DISPLAY_W and DISPLAY_H at least 1, STACK_LIMIT none or at least 1. -/
abbrev Config.wf (c : Config) : Prop :=
  1 ≤ c.displayW ∧ 1 ≤ c.displayH ∧ ∀ n ∈ c.stackLimit, 1 ≤ n

/-- `RND`, the free random byte (R111: "a fresh free 8-bit value at every execution of Cxkk"): the byte of the
`k`-th execution. It has no body, so nothing can be proved of its value (Log 2). -/
opaque Config.rnd : Nat → Byte

end Sys2Proof
end

