-- ==== Sys2Proof/Machine/Defaults.lean ====
section
/-! DEFINITION. The default values of the OPEN parameters (spec/00_scope.md R4): the standard display, an unbounded
stack, and the default font of spec/70_reset_and_hazards.md R181 (general knowledge K1 by the spec's own words,
Log 6). -/

namespace Sys2Proof.Machine

/-- The glyphs of digits 0 to 7, five bytes each, top row first (R181's table). -/
def fontLow : List Byte :=
  [0xF0, 0x90, 0x90, 0x90, 0xF0,  0x20, 0x60, 0x20, 0x20, 0x70,
   0xF0, 0x10, 0xF0, 0x80, 0xF0,  0xF0, 0x10, 0xF0, 0x10, 0xF0,
   0x90, 0x90, 0xF0, 0x10, 0x10,  0xF0, 0x80, 0xF0, 0x10, 0xF0,
   0xF0, 0x80, 0xF0, 0x90, 0xF0,  0xF0, 0x10, 0x20, 0x40, 0x40]

/-- The glyphs of digits 8 to F (R181's table). -/
def fontHigh : List Byte :=
  [0xF0, 0x90, 0xF0, 0x90, 0xF0,  0xF0, 0x90, 0xF0, 0x10, 0xF0,
   0xF0, 0x90, 0xF0, 0x90, 0x90,  0xE0, 0x90, 0xE0, 0x90, 0xE0,
   0xF0, 0x80, 0x80, 0x80, 0xF0,  0xE0, 0x90, 0x90, 0x90, 0xE0,
   0xF0, 0x80, 0xF0, 0x80, 0xF0,  0xF0, 0x80, 0xF0, 0x80, 0x80]

/-- The default `FONT_DATA` (R181). -/
def defaultFont : Font := ⟨⟨fontLow ++ fontHigh⟩, rfl⟩

/-- The default parameters (R4: 64 × 32, `STACK_LIMIT` none). -/
def defaultConfig : Config where
  displayW := 64
  displayH := 32
  stackLimit := none
  font := defaultFont

end Sys2Proof.Machine
end

