-- ==== Sys2Proof/Machine/State.lean ====
section
/-! DEFINITION. The state of the machine (spec/10_state.md), the reasons a step can stop (spec/60_exceptions.md) and
the state after reset (R23). Plain data; operations are in Machine/Ops.lean. -/

namespace Sys2Proof.Machine

/-- MEM (R19): the listed bytes, addresses strictly rising, none listed that holds its reset contents
(`Memory.wf`, `resetByte` in Machine/Ops.lean; Log 7). -/
abbrev Memory := List Host.Cell

/-- PIX (R18): the rows from the top, each row's pixels from the left; true is 1, on (Log 9). -/
abbrev Grid := List (List Bool)

/-- The fatal causes of R160 with the value each records. -/
inductive Cause where
  /-- Code 1, R161: the first address at or above 4096 that was accessed. -/
  | memOutOfBounds (addr : Nat)
  /-- Code 2, R162. -/
  | stackUnderflow
  /-- Code 4, R163: the length offered to `load`. -/
  | romTooLarge (length : Nat)
  /-- Code 5, R165: the key number, above 15. -/
  | keyIndexOutOfRange (k : Byte)
  /-- Code 6, R166. -/
  | stackOverflow
  deriving DecidableEq, Repr

/-- The fault record that HALT holds (R168). Its four fields: `cause` and `info` are both read off `cause`. -/
structure FaultRecord where
  cause : Cause
  /-- Where the faulting word was fetched from; the PC of a failed fetch; none for `romTooLarge`. -/
  atPc : Option Word
  /-- The faulting word; none for a failed fetch and for `romTooLarge`. -/
  word : Option Word
  deriving DecidableEq, Repr

/-- An output event of a cycle (R24). -/
inductive Event where
  /-- R138: PIX is to be shown. -/
  | refresh
  /-- R84: the unsupported word `w`, fetched from `a`. -/
  | unsupported (w a : Word)
  deriving DecidableEq, Repr

/-- Everything the machine holds between cycles: the ten elements of 10_state.md's summary, then the model's own
three fields (INVENTORY.md, Log 1 to Log 3). -/
structure State where
  /-- V0 to VF (R10, R11). -/
  v : Vector Byte 16
  /-- I (R12). -/
  i : Word
  /-- PC (R13). -/
  pc : Word
  /-- STACK (R14), the top element first (Log 8). -/
  stack : List Word
  /-- DT (R15). -/
  dt : Byte
  /-- ST (R15). -/
  st : Byte
  /-- KEY (R16): true is down. -/
  key : Vector Bool 16
  /-- LATCH (R17). -/
  latch : Option Key
  /-- PIX (R18). -/
  pix : Grid
  /-- MEM (R19). -/
  mem : Memory
  /-- HALT (R20). -/
  halt : Option FaultRecord
  /-- The machine's parameters (R4); nothing changes them (Log 1). -/
  cfg : Config
  /-- How many random bytes have been drawn (Log 2). -/
  draws : Nat
  /-- The output events so far, oldest first (Log 3). -/
  events : List Event
  deriving DecidableEq, Repr

/-- A fatal fault (R160, R167): the cause, and the machine as the fault leaves it, HALT latched and everything else
frozen (R172). All are safe: the run stops where the spec says the hardware stops. -/
inductive Fault where
  /-- Raised by the fetch when PC ≥ 4095 and by DRW, LD_B, ST_REGS, LD_REGS at the first address ≥ 4096 (R161);
  safe. -/
  | memOutOfBounds (addr : Nat) (frozen : State)
  /-- Raised by RET with STACK empty (R162); safe. -/
  | stackUnderflow (frozen : State)
  /-- Raised by the host's `load` of more than 3584 bytes, never by a step (R163); safe. -/
  | romTooLarge (length : Nat) (frozen : State)
  /-- Raised by SKP and SKNP with Vx > 15 (R165); safe, by the spec's decision D9 (Log 12). -/
  | keyIndexOutOfRange (k : Byte) (frozen : State)
  /-- Raised by CALL when STACK_LIMIT is N and STACK holds N (R166); safe. -/
  | stackOverflow (frozen : State)
  deriving DecidableEq, Repr

/-- Why a step gives no meaning. -/
inductive Refusal where
  /-- An instruction whose arm in Machine/Dispatch.lean has no meaning yet; there is none. Safe. -/
  | notModelled (mnemonic : String)
  deriving DecidableEq, Repr

/-- A grid of `w` columns and `h` rows, every pixel 0. -/
def blankGrid (w h : Nat) : Grid := List.replicate h (List.replicate w false)

/-- The state R23 gives after reset, for a machine with parameters `c`: PC from the source, the rest the spec's own
decisions D4, D5, D15 (Log 5). No byte of memory is listed, so each holds its reset contents: the font at 0x050 and
0x00 elsewhere. -/
def State.resetOf (c : Config) : State where
  v := Vector.replicate 16 0
  i := 0
  pc := 0x0200
  stack := []
  dt := 0
  st := 0
  key := Vector.replicate 16 false
  latch := none
  pix := blankGrid c.displayW c.displayH
  mem := []
  halt := none
  cfg := c
  draws := 0
  events := []

/-- The machine with the default parameters right after reset (R23). -/
def State.reset : State := State.resetOf defaultConfig

end Sys2Proof.Machine
end

