-- ==== Sys2Proof/Machine/Ops.lean ====
section
/-! DEFINITION. The named operations over state: registers, memory (spec/20_memory.md), faults
(spec/60_exceptions.md R167), call stack, PC, pixels (spec/44_display.md R131, R132), key latch
(spec/45_keypad_timers.md R142), timers (R147), output events, the random byte, and the fetch. -/

namespace Sys2Proof.Machine

/-- The outcome of a meaning or a step. -/
abbrev Result := Host.Outcome State Fault Refusal

/-- Go on with `f` where `r` is a next state; a fault or a refusal stays. -/
def andThen (r : Result) (f : State → Result) : Result :=
  match r with
  | .next s => f s
  | .fault e => .fault e
  | .refused e => .refused e

/-! ## One update per field -/

/-- `V[r] <- b`. -/
def State.setReg (s : State) (r : Reg) (b : Byte) : State := { s with v := s.v.set r.val b r.isLt }
/-- `I <- w`. -/
def State.setI (s : State) (w : Word) : State := { s with i := w }
/-- `PC <- w`. -/
def State.setPc (s : State) (w : Word) : State := { s with pc := w }
/-- `STACK` replaced. -/
def State.setStack (s : State) (l : List Word) : State := { s with stack := l }
/-- `DT <- b`. -/
def State.setDt (s : State) (b : Byte) : State := { s with dt := b }
/-- `ST <- b`. -/
def State.setSt (s : State) (b : Byte) : State := { s with st := b }
/-- `KEY[k] <- b`. -/
def State.setKey (s : State) (k : Key) (b : Bool) : State := { s with key := s.key.set k.val b k.isLt }
/-- `LATCH <- l`. -/
def State.setLatch (s : State) (l : Option Key) : State := { s with latch := l }
/-- `PIX` replaced. -/
def State.setPix (s : State) (g : Grid) : State := { s with pix := g }
/-- `MEM` replaced. -/
def State.setMem (s : State) (m : Memory) : State := { s with mem := m }
/-- `HALT <- h`. -/
def State.setHalt (s : State) (h : Option FaultRecord) : State := { s with halt := h }
/-- The count of random bytes drawn replaced. -/
def State.setDraws (s : State) (n : Nat) : State := { s with draws := n }
/-- `emit e` (R84, R138). -/
def State.emit (s : State) (e : Event) : State := { s with events := s.events ++ [e] }

/-- `V[r]` (R10: all 16 read and write alike, none is hardwired). -/
def State.reg (s : State) (r : Reg) : Byte := s.v[r.val]

/-- `IsDown(k)` (R141). -/
def State.isDown (s : State) (k : Key) : Bool := s.key[k.val]

/-! ## Faults -/

/-- The number R160 gives a cause. -/
def Cause.code : Cause → Nat
  | .memOutOfBounds _ => 1
  | .stackUnderflow => 2
  | .romTooLarge _ => 4
  | .keyIndexOutOfRange _ => 5
  | .stackOverflow => 6

/-- The value R160 has a cause record (R168's `info`). -/
def Cause.info : Cause → Option Nat
  | .memOutOfBounds a => some a
  | .stackUnderflow => none
  | .romTooLarge n => some n
  | .keyIndexOutOfRange k => some k.toNat
  | .stackOverflow => none

/-- The fault outcome of a cause, with the machine it leaves. -/
def Fault.ofCause : Cause → State → Fault
  | .memOutOfBounds a, s => .memOutOfBounds a s
  | .stackUnderflow, s => .stackUnderflow s
  | .romTooLarge n, s => .romTooLarge n s
  | .keyIndexOutOfRange k, s => .keyIndexOutOfRange k s
  | .stackOverflow, s => .stackOverflow s

/-- The cause of a fault outcome. -/
def Fault.cause : Fault → Cause
  | .memOutOfBounds a _ => .memOutOfBounds a
  | .stackUnderflow _ => .stackUnderflow
  | .romTooLarge n _ => .romTooLarge n
  | .keyIndexOutOfRange k _ => .keyIndexOutOfRange k
  | .stackOverflow _ => .stackOverflow

/-- The machine a fault leaves, which the host can still read and reset (R167, R169, R172). -/
def Fault.frozen : Fault → State
  | .memOutOfBounds _ s => s
  | .stackUnderflow s => s
  | .romTooLarge _ s => s
  | .keyIndexOutOfRange _ s => s
  | .stackOverflow s => s

/-- The whole of taking a fault (R167): HALT gets the record of R168 and nothing else changes; the cycle ends there.
There is no return from it but the host's reset (R169; `State.hostReset` in Machine/HostInterface.lean). -/
def raise (c : Cause) (atPc word : Option Word) (s : State) : Result :=
  .fault (Fault.ofCause c (s.setHalt (some ⟨c, atPc, word⟩)))

/-- `raise` inside the execute phase of the instruction word `w`: PC is then the word's own address plus 2 (R82), so
R168's `at` is PC − 2 (Log 25). -/
def raiseExec (w : Word) (c : Cause) (s : State) : Result :=
  raise c (some (s.pc - 2)) (some w) s

/-! ## Memory -/

/-- What an address that memory does not list reads as: its contents after reset, the font at 0x050 to 0x09F and
0x00 elsewhere (R23, R41, R181). -/
def resetByte (font : Font) (a : Nat) : Byte :=
  if h : fontBase ≤ a ∧ a < fontBase + fontBytes then
    font[a - fontBase]'(by omega)
  else 0

/-- The byte at an address: the listed one, else the reset contents. -/
def Memory.read (font : Font) : Memory → Nat → Byte
  | [], a => resetByte font a
  | c :: m, a => if c.1 = a then c.2 else Memory.read font m a

/-- The listing of one byte: none where it equals the reset contents. -/
def Memory.cell (font : Font) (a : Nat) (b : Byte) : Memory :=
  if b = resetByte font a then [] else [(a, b)]

/-- Store one byte, keeping the list rising and free of bytes that hold their reset contents. -/
def Memory.write (font : Font) : Memory → Nat → Byte → Memory
  | [], a, b => Memory.cell font a b
  | c :: m, a, b =>
    if c.1 < a then c :: Memory.write font m a b
    else if c.1 = a then Memory.cell font a b ++ m
    else Memory.cell font a b ++ c :: m

/-- The canonical form: addresses strictly rising and below 4096, no byte listed that holds its reset contents. -/
abbrev Memory.wf (font : Font) (m : Memory) : Prop :=
  m.Pairwise (fun c d => c.1 < d.1) ∧ ∀ c ∈ m, c.1 < memSize ∧ c.2 ≠ resetByte font c.1

/-- `MEM[a]`, total: the machine itself reads only through `memRead8`. -/
def State.byteAt (s : State) (a : Nat) : Byte := Memory.read s.cfg.font s.mem a

/-- `MEM[a] <- b` with no check: the machine itself writes only through `memWrite8`. -/
def State.putByte (s : State) (a : Nat) (b : Byte) : State :=
  s.setMem (Memory.write s.cfg.font s.mem a b)

/-- `MemRead(a, 1)` (R44); the error is the address of `MemOutOfBounds` (R48). -/
def memRead8 (s : State) (a : Nat) : Except Nat Byte :=
  if a < memSize then .ok (s.byteAt a) else .error a

/-- `MemRead(a, 2)` (R45), the byte at the lower address more significant; the error is the first address out of
range. -/
def memRead16 (s : State) (a : Nat) : Except Nat Word :=
  match memRead8 s a with
  | .error e => .error e
  | .ok hi =>
    match memRead8 s (a + 1) with
    | .error e => .error e
    | .ok lo => .ok (wordOfBytes hi lo)

/-- `MemWrite(a, 1, b)` (R46). -/
def memWrite8 (s : State) (a : Nat) (b : Byte) : Except Nat State :=
  if a < memSize then .ok (s.putByte a b) else .error a

/-- Store bytes at `a`, `a + 1`, …, one at a time (R50, R126): the first address out of range raises and the bytes
before it stay stored. `w` is the word of the instruction that stores. -/
def storeBytes (w : Word) : List Byte → Nat → State → Result
  | [], _, s => .next s
  | b :: bs, a, s =>
    match memWrite8 s a b with
    | .ok t => storeBytes w bs (a + 1) t
    | .error e => raiseExec w (.memOutOfBounds e) s

/-- Load registers from `a`, `a + 1`, …, one at a time (R50, R126): the first address out of range raises and the
registers before it stay loaded. -/
def loadRegs (w : Word) : List Reg → Nat → State → Result
  | [], _, s => .next s
  | r :: rs, a, s =>
    match memRead8 s a with
    | .ok b => loadRegs w rs (a + 1) (s.setReg r b)
    | .error e => raiseExec w (.memOutOfBounds e) s

/-- The `n` bytes at `a`, `a + 1`, … in ascending order, or the first address out of range (R139). -/
def readBytes (s : State) : Nat → Nat → Except Nat (List Byte)
  | 0, _ => .ok []
  | n + 1, a =>
    match memRead8 s a with
    | .error e => .error e
    | .ok b =>
      match readBytes s n (a + 1) with
      | .error e => .error e
      | .ok bs => .ok (b :: bs)

/-! ## PC and the call stack -/

/-- PC advanced by one instruction, modulo 65536 (R82, R89). -/
def State.advancePc (s : State) : State := s.setPc (s.pc + 2)

/-- `Skip()` where the condition holds (R89). -/
def State.skipIf (s : State) (c : Bool) : State := if c then s.advancePc else s

/-- STACK already holds `STACK_LIMIT` entries (R14, R166); an unbounded stack is never full. -/
def State.stackFull (s : State) : Bool :=
  match s.cfg.stackLimit with
  | none => false
  | some n => n ≤ s.stack.length

/-- `Push(a)` (R14), for the instruction word `w`. -/
def push (w : Word) (a : Word) (s : State) : Result :=
  if s.stackFull then raiseExec w .stackOverflow s else .next (s.setStack (a :: s.stack))

/-- `Pop()` into PC (R14, R90), for the instruction word `w`: only the top element goes. -/
def popToPc (w : Word) (s : State) : Result :=
  match s.stack with
  | [] => raiseExec w .stackUnderflow s
  | a :: rest => .next ((s.setStack rest).setPc a)

/-! ## Pixels -/

/-- A grid of `w` columns and `h` rows (R18, R130). -/
abbrev Grid.shaped (w h : Nat) (g : Grid) : Prop := g.length = h ∧ ∀ row ∈ g, row.length = w

/-- `PIX[px][py]`; a coordinate outside the grid names no pixel and reads false here (R130: the core never passes
one). -/
def Grid.pixel (g : Grid) (px py : Nat) : Bool :=
  match g[py]? with
  | none => false
  | some row => row[px]?.getD false

/-- `PIX[px][py]` of the machine. -/
def State.pixel (s : State) (px py : Nat) : Bool := Grid.pixel s.pix px py

/-- `PIX[px][py] <- PIX[px][py] ^ 1` (R131). -/
def Grid.toggle (g : Grid) (px py : Nat) : Grid := g.modify py (fun row => row.modify px (!·))

/-- `FlipPixel(px, py)` (R131): the grid after, and the pixel's new value. -/
def flipPixel (g : Grid) (px py : Nat) : Grid × Bool :=
  (Grid.toggle g px py, Grid.pixel (Grid.toggle g px py) px py)

/-- Flip the pixels of a list in turn; the flag records whether a flip answered 0 (R134: the pixel was on and is now
off). -/
def flipAll : List (Nat × Nat) → Grid → Bool → Grid × Bool
  | [], g, hit => (g, hit)
  | p :: ps, g, hit => flipAll ps (flipPixel g p.1 p.2).1 (hit || !(flipPixel g p.1 p.2).2)

/-- `ClearDisplay()` (R132). -/
def State.clearDisplay (s : State) : State := s.setPix (blankGrid s.cfg.displayW s.cfg.displayH)

/-! ## Keys, timers, random byte -/

/-- All key numbers, lowest first. -/
def allKeys : List Key := [0, 1, 2, 3, 4, 5, 6, 7, 8, 9, 10, 11, 12, 13, 14, 15]

/-- The lowest key number that is down (R142, D10; Log 11). -/
def State.firstDown (s : State) : Option Key := allKeys.find? s.isDown

/-- `PollRelease()` (R142): the machine after, and the released key if there is one. -/
def pollRelease (s : State) : State × Option Key :=
  match s.latch with
  | none =>
    match s.firstDown with
    | none => (s, none)
    | some k => (s.setLatch (some k), none)
  | some k => if s.isDown k then (s, none) else (s.setLatch none, some k)

/-- `Tick(T)` (R147): one less, floor 0. -/
def tick (b : Byte) : Byte := if b = 0 then 0 else b - 1

/-- `Tick(DT); Tick(ST)` (R85). -/
def State.tickTimers (s : State) : State := (s.setDt (tick s.dt)).setSt (tick s.st)

/-- `Draw8()` (R111): the next free byte (Log 2). -/
def State.draw8 (s : State) : Byte := Config.rnd s.draws

/-- The machine after `Draw8()`: the byte is used up, the next draw is another one. -/
def State.afterDraw (s : State) : State := s.setDraws (s.draws + 1)

/-! ## Fetch -/

/-- The fetch (R81): the word at PC, or the address that is out of range. -/
def fetch (s : State) : Except Nat Word := memRead16 s s.pc.toNat

/-- The word `w` stored where the next fetch reads it, big-endian (R60); a byte whose address does not exist is not
stored. -/
def placeWord (w : Word) (s : State) : State :=
  match memWrite8 s s.pc.toNat (highByte w) with
  | .error _ => s
  | .ok t =>
    match memWrite8 t (s.pc.toNat + 1) (lowByte w) with
    | .error _ => t
    | .ok u => u

end Sys2Proof.Machine
end

