-- ==== Sys2Proof/Machine/Flags.lean ====
section
/-! DEFINITION. The values the flag VF gets (spec/10_state.md R11; spec/42_alu.md R103 to R110, R112;
spec/44_display.md R137), and the write of it. -/

namespace Sys2Proof.Machine

/-- A condition as the flag's value: 1 or 0. -/
def flagOf (c : Bool) : Byte := if c then 1 else 0

/-- `VF <- b` (R11). -/
def State.setFlag (s : State) (b : Byte) : State := s.setReg VF b

/-- 8xy4: "1 if s > 255 else 0", s the sum as a natural number (R106). -/
def carryFlag (a b : Byte) : Byte := flagOf (255 < a.toNat + b.toNat)

/-- Not-borrow of `minuend − subtrahend`: "1 exactly when minuend ≥ subtrahend" (R107, R109, R113). -/
def notBorrowFlag (minuend subtrahend : Byte) : Byte := flagOf (subtrahend.toNat ≤ minuend.toNat)

/-- 8xy6: bit 0, the bit a right shift drops (R108). -/
def bit0Flag (b : Byte) : Byte := flagOf (b.getLsbD 0)

/-- 8xyE: bit 7, the bit a left shift drops (R110). -/
def bit7Flag (b : Byte) : Byte := flagOf (b.getLsbD 7)

/-- Dxyn: 1 if a flip turned a pixel off, else 0 (R137; Log 14). -/
def collisionFlag (hit : Bool) : Byte := flagOf hit

end Sys2Proof.Machine
end

