-- ==== Sys2Proof/Machine/Operands.lean ====
section
/-! DEFINITION. The operand forms beside a plain register, `kk` or `nnn`: a register used as a count (Fx55, Fx65), the
effective address I plus an offset (spec/20_memory.md R51), a register used as a key number (spec/45_keypad_timers.md
R143 to R145), a key number as a byte (R146), the digits of a byte (R123), a glyph's address (R122), and the pixels a
sprite sets (spec/44_display.md R134 to R136). -/

namespace Sys2Proof.Machine

/-- All registers, V0 first. -/
def allRegs : List Reg := [0, 1, 2, 3, 4, 5, 6, 7, 8, 9, 10, 11, 12, 13, 14, 15]

/-- V0 to Vx (R124, R125). -/
def regsUpTo (x : Reg) : List Reg := allRegs.take (x.val + 1)

/-- The effective address `I + offset`, a natural number, not reduced (R51). -/
def State.effAddr (s : State) (offset : Nat) : Nat := s.i.toNat + offset

/-- `(I + x + 1) mod 65536` (R124, R125). -/
def State.iPastBlock (s : State) (x : Reg) : Word := s.i + BitVec.ofNat 16 (x.val + 1)

/-- A byte as a key number; none above 15 (R145). -/
def keyOf (b : Byte) : Option Key := if h : b.toNat < 16 then some ⟨b.toNat, h⟩ else none

/-- `zext_8` of a key number (R146). -/
def byteOfKey (k : Key) : Byte := BitVec.ofNat 8 k.val

/-- Hundreds, tens, ones (R123). -/
def bcdDigits (b : Byte) : List Byte :=
  [BitVec.ofNat 8 (b.toNat / 100), BitVec.ofNat 8 (b.toNat / 10 % 10), BitVec.ofNat 8 (b.toNat % 10)]

/-- The address of the glyph of digit `b`, the whole byte used (R122; Log 17). -/
def glyphAddr (b : Byte) : Word := zext16 b * 5 + BitVec.ofNat 16 fontBase

/-- The pixels of one sprite row: column `x0 + c` for each set bit 7 − c, columns past the right edge clipped
(R135, R136). -/
def rowPixels (w x0 py : Nat) (b : Byte) : List (Nat × Nat) :=
  ([0, 1, 2, 3, 4, 5, 6, 7].filter fun c => decide (x0 + c < w) && b.getLsbD (7 - c)).map fun c => (x0 + c, py)

/-- The pixels of a sprite whose top row is at `py`, rows past the bottom edge clipped (R134, R136). -/
def spritePixels (w h x0 : Nat) : Nat → List Byte → List (Nat × Nat)
  | _, [] => []
  | py, b :: bs => (if py < h then rowPixels w x0 py b else []) ++ spritePixels w h x0 (py + 1) bs

/-- The pixels DRW toggles for a sprite `rows` at the position in `Vx`, `Vy`, reduced modulo the display's size
(R134). -/
def State.drawPixels (s : State) (x y : Reg) (rows : List Byte) : List (Nat × Nat) :=
  spritePixels s.cfg.displayW s.cfg.displayH ((s.reg x).toNat % s.cfg.displayW)
    ((s.reg y).toNat % s.cfg.displayH) rows

end Sys2Proof.Machine
end

