-- ==== Sys2Proof/Machine/Alu.lean ====
section
/-! DEFINITION. Register loads, arithmetic, logic, shifts, random (spec/42_alu.md R100 to R113). The writes stand in
the order the spec lists them (R112): with x = F the last one is what VF keeps. -/

namespace Sys2Proof.Machine

/-- Result to Vx, then flag to VF, both computed from the operands before any write (R112). -/
def resultThenFlag (x : Reg) (result flag : Byte) (s : State) : Result :=
  .next ((s.setReg x result).setFlag flag)

/-- 6xkk, R100. -/
def execLdI (x : Reg) (kk : Byte) (s : State) : Result := .next (s.setReg x kk)

/-- 7xkk, R101: no flag. -/
def execAddI (x : Reg) (kk : Byte) (s : State) : Result := .next (s.setReg x (s.reg x + kk))

/-- 8xy0, R102. -/
def execLdR (x y : Reg) (s : State) : Result := .next (s.setReg x (s.reg y))

/-- 8xy1, R103. -/
def execOr (x y : Reg) (s : State) : Result := resultThenFlag x (s.reg x ||| s.reg y) 0 s

/-- 8xy2, R104. -/
def execAnd (x y : Reg) (s : State) : Result := resultThenFlag x (s.reg x &&& s.reg y) 0 s

/-- 8xy3, R105. -/
def execXor (x y : Reg) (s : State) : Result := resultThenFlag x (s.reg x ^^^ s.reg y) 0 s

/-- 8xy4, R106. -/
def execAddR (x y : Reg) (s : State) : Result :=
  resultThenFlag x (s.reg x + s.reg y) (carryFlag (s.reg x) (s.reg y)) s

/-- 8xy5, R107. -/
def execSub (x y : Reg) (s : State) : Result :=
  resultThenFlag x (s.reg x - s.reg y) (notBorrowFlag (s.reg x) (s.reg y)) s

/-- 8xy7, R109. -/
def execSubn (x y : Reg) (s : State) : Result :=
  resultThenFlag x (s.reg y - s.reg x) (notBorrowFlag (s.reg y) (s.reg x)) s

/-- The three statements of a shift (R108, R110): copy Vy to Vx, then the flag from Vx, then shift Vx; each sees the
one before (R112, Log 10). -/
def copyFlagShift (x y : Reg) (flag shift : Byte → Byte) (s : State) : Result :=
  let copied := s.setReg x (s.reg y)
  let flagged := copied.setFlag (flag (copied.reg x))
  .next (flagged.setReg x (shift (flagged.reg x)))

/-- 8xy6, R108. -/
def execShr (x y : Reg) (s : State) : Result := copyFlagShift x y bit0Flag (· >>> 1) s

/-- 8xyE, R110. -/
def execShl (x y : Reg) (s : State) : Result := copyFlagShift x y bit7Flag (· <<< 1) s

/-- Cxkk, R111. -/
def execRnd (x : Reg) (kk : Byte) (s : State) : Result := .next (s.afterDraw.setReg x (s.draw8 &&& kk))

end Sys2Proof.Machine
end

