-- ==== Sys2Proof/Machine/ControlFlow.lean ====
section
/-! DEFINITION. Control transfer (spec/41_control_flow.md R90 to R97). A meaning is the execute phase: PC already holds
the instruction's address plus 2 (R82). -/

namespace Sys2Proof.Machine

/-- 00EE, R90. -/
def execRet (s : State) : Result := popToPc (encode .ret) s

/-- 1nnn, R91. -/
def execJp (nnn : Addr12) (s : State) : Result := .next (s.setPc (addr16 nnn))

/-- 2nnn, R92: the pushed PC is the address after the call. -/
def execCall (nnn : Addr12) (s : State) : Result :=
  andThen (push (encode (.call nnn)) s.pc s) fun t => .next (t.setPc (addr16 nnn))

/-- 3xkk, R93. -/
def execSeI (x : Reg) (kk : Byte) (s : State) : Result := .next (s.skipIf (s.reg x == kk))

/-- 4xkk, R94. -/
def execSneI (x : Reg) (kk : Byte) (s : State) : Result := .next (s.skipIf (s.reg x != kk))

/-- 5xy0, R95. -/
def execSeR (x y : Reg) (s : State) : Result := .next (s.skipIf (s.reg x == s.reg y))

/-- 9xy0, R96. -/
def execSneR (x y : Reg) (s : State) : Result := .next (s.skipIf (s.reg x != s.reg y))

/-- Bnnn, R97: the register is V0 whatever bits 11:8 are; no reduction modulo 4096. -/
def execJpV0 (nnn : Addr12) (s : State) : Result := .next (s.setPc (addr16 nnn + zext16 (s.reg 0)))

end Sys2Proof.Machine
end

