-- ==== Sys2Proof/Machine/Display.lean ====
section
/-! DEFINITION. Clear and draw (spec/44_display.md R133 to R139). -/

namespace Sys2Proof.Machine

/-- 00E0, R133: no flag, no event. -/
def execCls (s : State) : Result := .next s.clearDisplay

/-- Toggle the pixels of the sprite, then VF and the event (R134, R137, R138). -/
def drawSprite (x y : Reg) (rows : List Byte) (s : State) : State :=
  let drawn := flipAll (s.drawPixels x y rows) s.pix false
  ((s.setPix drawn.1).setFlag (collisionFlag drawn.2)).emit .refresh

/-- Dxyn, R134: all `n` bytes are read before anything is written (R139). -/
def execDrw (x y : Reg) (n : Nibble) (s : State) : Result :=
  match readBytes s n.toNat (s.effAddr 0) with
  | .error a => raiseExec (encode (.drw x y n)) (.memOutOfBounds a) s
  | .ok rows => .next (drawSprite x y rows s)

end Sys2Proof.Machine
end

