-- ==== Sys2Proof/Machine/IndexMemory.lean ====
section
/-! DEFINITION. Index register and memory transfer (spec/43_index_memory.md R120 to R126). -/

namespace Sys2Proof.Machine

/-- Annn, R120. -/
def execLdIdx (nnn : Addr12) (s : State) : Result := .next (s.setI (addr16 nnn))

/-- Fx1E, R121: modulo 65536, no flag (Log 16). -/
def execAddIdx (x : Reg) (s : State) : Result := .next (s.setI (s.i + zext16 (s.reg x)))

/-- Fx29, R122. -/
def execLdF (x : Reg) (s : State) : Result := .next (s.setI (glyphAddr (s.reg x)))

/-- Fx33, R123: I unchanged. -/
def execLdB (x : Reg) (s : State) : Result :=
  storeBytes (encode (.ldB x)) (bcdDigits (s.reg x)) (s.effAddr 0) s

/-- Fx55, R124: I moves only after every write succeeded. -/
def execStRegs (x : Reg) (s : State) : Result :=
  andThen (storeBytes (encode (.stRegs x)) ((regsUpTo x).map s.reg) (s.effAddr 0) s) fun t =>
    .next (t.setI (t.iPastBlock x))

/-- Fx65, R125: I moves only after every read succeeded. -/
def execLdRegs (x : Reg) (s : State) : Result :=
  andThen (loadRegs (encode (.ldRegs x)) (regsUpTo x) (s.effAddr 0) s) fun t =>
    .next (t.setI (t.iPastBlock x))

end Sys2Proof.Machine
end

