-- ==== Sys2Proof/Machine/KeypadTimers.lean ====
section
/-! DEFINITION. Key and timer instructions (spec/45_keypad_timers.md R143 to R150). -/

namespace Sys2Proof.Machine

/-- Skip where the state of key Vx is `down`; above 15 the fault of R145. `w` is the instruction's word. -/
def skipOnKey (w : Word) (x : Reg) (down : Bool) (s : State) : Result :=
  match keyOf (s.reg x) with
  | none => raiseExec w (.keyIndexOutOfRange (s.reg x)) s
  | some k => .next (s.skipIf (s.isDown k == down))

/-- Ex9E, R143. -/
def execSkp (x : Reg) (s : State) : Result := skipOnKey (encode (.skp x)) x true s

/-- ExA1, R144. -/
def execSknp (x : Reg) (s : State) : Result := skipOnKey (encode (.sknp x)) x false s

/-- Fx0A, R146: no released key moves PC back onto this instruction. -/
def execLdVxK (x : Reg) (s : State) : Result :=
  match pollRelease s with
  | (t, none) => .next (t.setPc (t.pc - 2))
  | (t, some k) => .next (t.setReg x (byteOfKey k))

/-- Fx07, R148: DT before this cycle's tick. -/
def execLdVxDt (x : Reg) (s : State) : Result := .next (s.setReg x s.dt)

/-- Fx15, R149. -/
def execLdDtVx (x : Reg) (s : State) : Result := .next (s.setDt (s.reg x))

/-- Fx18, R150. -/
def execLdStVx (x : Reg) (s : State) : Result := .next (s.setSt (s.reg x))

end Sys2Proof.Machine
end

