-- ==== Sys2Proof/Machine/Step.lean ====
section
/-! DEFINITION. One step is one cycle (spec/40_cycle.md R80): fetch, PC advance, decode, execute, tick. -/

namespace Sys2Proof.Machine

/-- The end of a cycle that did not raise (R85); a fault ends the cycle with no tick (R86). -/
def tickAfter (r : Result) : Result := andThen r fun t => .next t.tickTimers

/-- The cycle of a fetched word `w`, the machine `s` before PC advances (R82 to R85). -/
def cycleOf (w : Word) (s : State) : Result :=
  match decodeWord w with
  | .ok i => tickAfter (exec i s.advancePc)
  | .error _ => tickAfter (.next (s.advancePc.emit (.unsupported w s.pc)))

/-- `Cycle()` (R80). A halted machine does nothing (R88); a failed fetch faults with PC not advanced (R81, R86). -/
def step (s : State) : Host.Outcome State Fault Refusal :=
  match s.halt with
  | some _ => .next s
  | none =>
    match fetch s with
    | .error a => raise (.memOutOfBounds a) (some s.pc) none s
    | .ok w => cycleOf w s

/-- The machine with the instruction word of the host's table stored at PC, where the next step fetches it (Log 21).
-/
def State.withFetchWord (s : State) (nbits w : Nat) : State := placeWord (tableWord nbits w) s

end Sys2Proof.Machine
end

