-- ==== Sys2Proof/Machine/HostInterface.lean ====
section
/-! DEFINITION. The host's transactions (spec/60_exceptions.md R174), each atomic and between cycles (R54): reset
(spec/70_reset_and_hazards.md R180), load (R182 to R184), key events (spec/45_keypad_timers.md R140), and the cycle. -/

namespace Sys2Proof.Machine

/-- `reset` (R180): every state element to the value of R23. The parameters stay, and so do the model's two running
records: the count of random bytes, so that a draw after a reset is still a fresh one, and the events already emitted
(Log 28). -/
def State.hostReset (s : State) : State :=
  { State.resetOf s.cfg with draws := s.draws, events := s.events }

/-- Bytes to `a`, `a + 1`, … (R182). -/
def State.putBytes : List Byte → Nat → State → State
  | [], _, s => s
  | b :: bs, a, s => State.putBytes bs (a + 1) (s.putByte a b)

/-- `load(bytes)`: the image unmodified from 0x200 (R182); more than 3584 bytes write nothing and raise RomTooLarge
(R163, R183). -/
def hostLoad (bytes : List Byte) (s : State) : Result :=
  if bytes.length ≤ romMax then .next (s.putBytes bytes progBase)
  else raise (.romTooLarge bytes.length) none none s

/-- `key_down(k)` (R140). -/
def State.keyDown (s : State) (k : Key) : State := s.setKey k true

/-- `key_up(k)` (R140). -/
def State.keyUp (s : State) (k : Key) : State := s.setKey k false

/-- The transactions of R174 from host to core. -/
inductive Transaction where
  | reset
  | load (bytes : List Byte)
  | keyDown (k : Key)
  | keyUp (k : Key)
  | cycle
  deriving DecidableEq, Repr

/-- What one transaction does. -/
def transact (t : Transaction) (s : State) : Result :=
  match t with
  | .reset => .next s.hostReset
  | .load bytes => hostLoad bytes s
  | .keyDown k => .next (s.keyDown k)
  | .keyUp k => .next (s.keyUp k)
  | .cycle => step s

/-- The machine the host finds after an outcome that started at `s`: a fault leaves the frozen machine, which the host
can read and reset (R168, R169). -/
def machineAfter (s : State) (r : Result) : State :=
  match r with
  | .next t => t
  | .fault f => f.frozen
  | .refused _ => s

/-- The machine after a sequence of transactions. -/
def transactAll : List Transaction → State → State
  | [], s => s
  | t :: ts, s => transactAll ts (machineAfter s (transact t s))

/-- R184 for the transactions after a reset: a load only where `mayLoad`, that is directly after a reset. -/
def legalAfter : Bool → List Transaction → Bool
  | _, [] => true
  | _, .reset :: ts => legalAfter true ts
  | mayLoad, .load _ :: ts => mayLoad && legalAfter false ts
  | _, .keyDown _ :: ts => legalAfter false ts
  | _, .keyUp _ :: ts => legalAfter false ts
  | _, .cycle :: ts => legalAfter false ts

/-- The sequences of transactions the interface defines: the first is a reset (R180), and after a reset at most one
load, before anything else (R184; Log 22). -/
def legal : List Transaction → Bool
  | .reset :: ts => legalAfter true ts
  | _ => false

end Sys2Proof.Machine
end

