-- ==== Sys2Proof/Safety.lean ====
section
/-! DEFINITION. The terms claims are made in: the invariants of a running machine, what a transition leaves unchanged,
which instruction a machine executes next, what the spec lists each instruction as writing, the bit of a sprite at a
pixel, and a terminated program. -/

namespace Sys2Proof.Machine

/-! ## Invariants -/

/-- The data of a machine is in form: parameters within R4's limits, memory canonical (R19, R40), the grid
DISPLAY_W × DISPLAY_H (R18, R130), the stack within STACK_LIMIT (R14). -/
abbrev State.Inv (s : State) : Prop :=
  s.cfg.wf ∧ Memory.wf s.cfg.font s.mem ∧ Grid.shaped s.cfg.displayW s.cfg.displayH s.pix ∧
    ∀ n ∈ s.cfg.stackLimit, s.stack.length ≤ n

/-- R13's bounds: PC never passes 0x10FE and a return address never passes 0x1000, so no PC arithmetic wraps. -/
abbrev State.PcBounded (s : State) : Prop := s.pc.toNat ≤ 0x10FE ∧ ∀ a ∈ s.stack, a.toNat ≤ 0x1000

/-- The instruction the next cycle executes, none where the fetch fails or the word is unsupported. -/
def State.nextInstr (s : State) : Option Instr :=
  match fetch s with
  | .ok w => decode? w
  | .error _ => none

/-- R22, R146: a key is latched only while the machine waits, not halted and with PC on an Fx0A word. -/
abbrev State.LatchWaits (s : State) : Prop :=
  s.latch ≠ none → s.halt = none ∧ ∃ x : Reg, s.nextInstr = some (.ldVxK x)

/-- R186's convention: the program has terminated at `nnn`. -/
abbrev State.TerminatedAt (s : State) (nnn : Addr12) : Prop :=
  s.halt = none ∧ s.pc = addr16 nnn ∧ fetch s = .ok (encode (.jp nnn))

/-! ## Frames -/

/-- The parts of a state beside the registers V0 to VF. -/
inductive Part where
  | i | pc | stack | dt | st | key | latch | pix | mem | halt | cfg | draws | events
  deriving DecidableEq, Repr

/-- The part is the same in both states; memory byte by byte, through the machine's own read of one byte. -/
def Keeps (s t : State) : Part → Prop
  | .i => t.i = s.i
  | .pc => t.pc = s.pc
  | .stack => t.stack = s.stack
  | .dt => t.dt = s.dt
  | .st => t.st = s.st
  | .key => ∀ k, t.isDown k = s.isDown k
  | .latch => t.latch = s.latch
  | .pix => t.pix = s.pix
  | .mem => ∀ a, t.byteAt a = s.byteAt a
  | .halt => t.halt = s.halt
  | .cfg => t.cfg = s.cfg
  | .draws => t.draws = s.draws
  | .events => t.events = s.events

/-- Every register but `regs` and every part but `parts` is the same in both states. -/
def Frame (regs : List Reg) (parts : List Part) (s t : State) : Prop :=
  (∀ r, r ∉ regs → t.reg r = s.reg r) ∧ ∀ p, p ∉ parts → Keeps s t p

/-- The registers the spec lists an instruction as writing (41_control_flow.md to 45_keypad_timers.md). -/
def regsWritten : Instr → List Reg
  | .ldI x _ | .addI x _ | .ldR x _ | .rnd x _ | .ldVxDt x | .ldVxK x => [x]
  | .orR x _ | .andR x _ | .xorR x _ | .addR x _ | .sub x _ | .shr x _ | .subn x _ | .shl x _ => [x, VF]
  | .drw _ _ _ => [VF]
  | .ldRegs x => regsUpTo x
  | .cls | .ret | .jp _ | .call _ | .seI _ _ | .sneI _ _ | .seR _ _ | .sneR _ _ | .ldIdx _ | .jpV0 _ | .skp _
  | .sknp _ | .ldDtVx _ | .ldStVx _ | .addIdx _ | .ldF _ | .ldB _ | .stRegs _ => []

/-- The other parts an instruction writes in its execute phase: the spec's lists for the spec's own state; RND's `draws`
(Log 2) and DRW's `events` (Log 3) are the model's own fields, and CLS has no `events` by the spec's decision D23
(Log 27). -/
def partsWritten : Instr → List Part
  | .cls => [.pix]
  | .ret | .call _ => [.pc, .stack]
  | .jp _ | .jpV0 _ | .seI _ _ | .sneI _ _ | .seR _ _ | .sneR _ _ | .skp _ | .sknp _ => [.pc]
  | .rnd _ _ => [.draws]
  | .drw _ _ _ => [.pix, .events]
  | .ldVxK _ => [.pc, .latch]
  | .ldDtVx _ => [.dt]
  | .ldStVx _ => [.st]
  | .ldIdx _ | .addIdx _ | .ldF _ | .ldRegs _ => [.i]
  | .ldB _ => [.mem]
  | .stRegs _ => [.mem, .i]
  | .ldI _ _ | .addI _ _ | .ldR _ _ | .orR _ _ | .andR _ _ | .xorR _ _ | .addR _ _ | .sub _ _ | .shr _ _ | .subn _ _
  | .shl _ _ | .ldVxDt _ => []

/-! ## Faults -/

/-- The machine `s` with the fault record of an execute-phase fault of word `w` latched, PC being the word's address
plus 2 (R86, R168). -/
def State.haltedBy (s : State) (c : Cause) (w : Word) : State :=
  s.setHalt (some ⟨c, some (s.pc - 2), some w⟩)

/-- The first address at or above 4096 that an ascending access from `a` touches (R161). -/
def firstOutOfRange (a : Nat) : Nat := max a memSize

/-! ## Sprites -/

/-- The column and row where a sprite starts (R134). -/
def State.spriteX (s : State) (x : Reg) : Nat := (s.reg x).toNat % s.cfg.displayW
/-- See `State.spriteX`. -/
def State.spriteY (s : State) (y : Reg) : Nat := (s.reg y).toNat % s.cfg.displayH

/-- The sprite's bit at pixel (px, py): row py − y0 of its `n` bytes, bit 7 leftmost (R134, R135); false outside the
sprite. -/
def State.spriteBit (s : State) (x y : Reg) (n : Nibble) (px py : Nat) : Bool :=
  decide (s.spriteX x ≤ px ∧ px < s.spriteX x + 8 ∧ s.spriteY y ≤ py ∧ py < s.spriteY y + n.toNat) &&
    (s.byteAt (s.effAddr (py - s.spriteY y))).getLsbD (7 - (px - s.spriteX x))

/-- Two states that differ in ST at most (R15, R151). -/
def SameButSt (s t : State) : Prop := s.setSt 0 = t.setSt 0

/-- Two outcomes of the same kind whose states differ in ST at most. -/
def SameOutcomeButSt : Result → Result → Prop
  | .next s, .next t => SameButSt s t
  | .fault f, .fault g => f.cause = g.cause ∧ SameButSt f.frozen g.frozen
  | .refused a, .refused b => a = b
  | _, _ => False

end Sys2Proof.Machine
end

