-- ==== Sys2Proof/Certificates/Slice0/Obligations.lean ====
section
/-! DEFINITION. The statements about CHIP8-CORE, from the numbered rules of spec/. `exec i s` is the execute phase: PC
of `s` is the instruction's address plus 2 (R82). `Frame regs parts s t` says that `t` differs from `s` in those
registers and parts at most; memory is compared byte by byte. -/

open Sys2Proof Sys2Proof.Machine

/-! ## Encoding -/

/-- Words written out from R67's patterns decode to their instructions, and 0x0123 is rejected by name. -/
def Obligations.DecodeGivesTableWords : Prop :=
  decodeWord 0x00E0 = .ok .cls ∧ decodeWord 0x2ABC = .ok (.call 0xABC) ∧ decodeWord 0x4C10 = .ok (.sneI 12 0x10) ∧
    decodeWord 0x8AB4 = .ok (.addR 10 11) ∧ decodeWord 0xA300 = .ok (.ldIdx 0x300) ∧
    decodeWord 0xD12F = .ok (.drw 1 2 15) ∧ decodeWord 0xE1A1 = .ok (.sknp 1) ∧ decodeWord 0xF365 = .ok (.ldRegs 3) ∧
    decodeWord 0x0123 = .error (.unsupported 0x0123)

/-- Decoding the encoded bytes of any instruction gives it back with every operand, and leaves the bytes after it. -/
def Obligations.DecodeEncodeRoundTrip : Prop :=
  ∀ (i : Instr) (rest : List Byte), decodeBytes (encodeBytes i ++ rest) = .ok (i, rest)

/-- The decoder drops no bit: a word that decodes is the encoding of what it decodes to. -/
def Obligations.EncodeDecodeRoundTrip : Prop :=
  ∀ (w : Word) (i : Instr), decodeWord w = .ok i → encode i = w

/-- R66: a word decodes to the instruction of the row it selects by mask and pattern, and only where it selects one. -/
def Obligations.DecodeIsRowSelection : Prop :=
  ∀ w : Word,
    (∀ i, decodeWord w = .ok i → ∃ r ∈ opcodeTable, r.selects w = true ∧ r.mnemonic = i.mnemonic) ∧
    (∀ r ∈ opcodeTable, r.selects w = true → ∃ i, decodeWord w = .ok i ∧ i.mnemonic = r.mnemonic)

/-- R68's first sentence: no two rows of R67 match the same word. -/
def Obligations.NoWordSelectsTwoRows : Prop :=
  ∀ (w : Word) (r q : OpcodeRow), r ∈ opcodeTable → q ∈ opcodeTable → r.selects w = true → q.selects w = true → r = q

/-- R70's table: the words the decoder rejects, by category (bits 15:12). -/
def Obligations.RejectedWordsAreThoseListed : Prop :=
  ∀ w : Word, decodeWord w = .error (.unsupported w) ↔
    (w.toNat / 4096 = 0x0 ∧ w ≠ 0x00E0 ∧ w ≠ 0x00EE) ∨
    (w.toNat / 4096 = 0x5 ∧ w.toNat % 16 ≠ 0) ∨
    (w.toNat / 4096 = 0x8 ∧ w.toNat % 16 ∈ [0x8, 0x9, 0xA, 0xB, 0xC, 0xD, 0xF]) ∨
    (w.toNat / 4096 = 0x9 ∧ w.toNat % 16 ≠ 0) ∨
    (w.toNat / 4096 = 0xE ∧ w.toNat % 256 ∉ [0x9E, 0xA1]) ∨
    (w.toNat / 4096 = 0xF ∧ w.toNat % 256 ∉ [0x07, 0x0A, 0x15, 0x18, 0x1E, 0x29, 0x33, 0x55, 0x65])

/-! ## The cycle -/

/-- R80, R82, R83: when the two bytes at PC decode to `i`, the cycle is `exec i` with PC advanced by 2, then the tick of
both timers, which a fault leaves out. That the tick follows the execute phase is the spec's decision D7 (Log 18), that a
fault leaves it out its decision D15 (Log 4). -/
def Obligations.StepRunsDecodedInstruction : Prop :=
  ∀ (s : State) (i : Instr), s.halt = none → s.pc.toNat + 1 < 4096 →
    decodeBytes [s.byteAt s.pc.toNat, s.byteAt (s.pc.toNat + 1)] = .ok (i, []) →
    step s =
      match exec i (s.setPc (s.pc + 2)) with
      | .next t => .next ((t.setDt (tick t.dt)).setSt (tick t.st))
      | .fault f => .fault f
      | .refused r => .refused r

/-- R84: an unsupported word advances PC, emits its event, ticks the timers and changes nothing else. That the event is
an output with the word and its address is the spec's decision D26, that the model keeps it in `events` is Log 3, and
that the timers tick once in each cycle is the spec's decision D7 (Log 18). -/
def Obligations.UnsupportedWordIsSoftNoOp : Prop :=
  ∀ (s : State) (w : Word), s.halt = none → fetch s = .ok w → (∀ r ∈ opcodeTable, r.selects w = false) →
    ∃ t, step s = .next t ∧ t.pc = s.pc + 2 ∧ t.events = s.events ++ [.unsupported w s.pc] ∧
      t.dt.toNat = s.dt.toNat - 1 ∧ t.st.toNat = s.st.toNat - 1 ∧ Frame [] [.pc, .events, .dt, .st] s t

/-- R81: the fetch reads the big-endian word at PC, odd or even; from 4095 on the cycle faults with the first address
that does not exist, and nothing but HALT changes. The record and the unadvanced PC are the spec's decision D15, the
address 4096 its decision D16. -/
def Obligations.FetchReadsWordOrFaults : Prop :=
  ∀ s : State, s.halt = none →
    (s.pc.toNat < 4095 →
      ∃ w, fetch s = .ok w ∧ w.toNat = (s.byteAt s.pc.toNat).toNat * 256 + (s.byteAt (s.pc.toNat + 1)).toNat) ∧
    (s.pc.toNat = 4095 →
      step s = .fault (.memOutOfBounds 4096 (s.setHalt (some ⟨.memOutOfBounds 4096, some s.pc, none⟩)))) ∧
    (4096 ≤ s.pc.toNat →
      step s = .fault (.memOutOfBounds s.pc.toNat (s.setHalt (some ⟨.memOutOfBounds s.pc.toNat, some s.pc, none⟩))))

/-- R88: a cycle asked of a halted machine changes nothing (the spec's decision D25). -/
def Obligations.HaltedCycleChangesNothing : Prop :=
  ∀ s : State, s.halt ≠ none → step s = .next s

/-- R85, R147, R149, R150, R188: whichever instruction runs, each timer ends a cycle one lower, floor 0, than it was at
its start, or than the value Fx15 (Fx18) wrote in that cycle. That the tick follows the execute phase is the spec's
decision D7 (Log 18). -/
def Obligations.TimersTickOncePerCycle : Prop :=
  ∀ s t : State, s.halt = none → step s = .next t →
    ((∀ x, s.nextInstr ≠ some (.ldDtVx x)) → t.dt.toNat = s.dt.toNat - 1) ∧
    ((∀ x, s.nextInstr ≠ some (.ldStVx x)) → t.st.toNat = s.st.toNat - 1) ∧
    (∀ x, s.nextInstr = some (.ldDtVx x) → t.dt.toNat = (s.reg x).toNat - 1) ∧
    (∀ x, s.nextInstr = some (.ldStVx x) → t.st.toNat = (s.reg x).toNat - 1)

/-- Every state has a cycle that ends in a next state or in a fault; no step is refused. -/
def Obligations.StepNeverRefuses : Prop :=
  ∀ s : State, (∃ t, step s = .next t) ∨ ∃ f, step s = .fault f

/-- R86, R167, R168, R169: a fault leaves a machine that is halted with a record of the cause, the address the faulting
word was fetched from and the word itself, whose timers have not ticked, that has emitted nothing, and that further
cycles do not change. The record's shape is the spec's decision D15, the halted cycle its decision D25; that the fault
outcome carries the frozen machine is Log 4. -/
def Obligations.FaultHaltsWithRecord : Prop :=
  ∀ (s : State) (f : Fault), step s = .fault f →
    s.halt = none ∧ step f.frozen = .next f.frozen ∧ f.frozen.dt = s.dt ∧ f.frozen.st = s.st ∧
      f.frozen.events = s.events ∧
      (∀ w, fetch s = .ok w → f.frozen.halt = some ⟨f.cause, some s.pc, some w⟩ ∧ f.frozen.pc = s.pc + 2) ∧
      (∀ a, fetch s = .error a → f.frozen.halt = some ⟨f.cause, some s.pc, none⟩ ∧ f.frozen.pc = s.pc)

/-- R160, R161, R171: which instructions can raise which cause; each has at most one. KeyIndexOutOfRange is
the spec's decision D9, StackOverflow its decision D3. -/
def Obligations.FaultCausesPerInstruction : Prop :=
  ∀ (i : Instr) (s : State) (f : Fault), exec i s = .fault f →
    match f.cause with
    | .memOutOfBounds a =>
      a = firstOutOfRange (s.effAddr 0) ∧
        ((∃ x y n, i = .drw x y n) ∨ ∃ x, i = .ldB x ∨ i = .stRegs x ∨ i = .ldRegs x)
    | .stackUnderflow => i = .ret ∧ s.stack = []
    | .romTooLarge _ => False
    | .keyIndexOutOfRange k => 15 < k.toNat ∧ ∃ x, (i = .skp x ∨ i = .sknp x) ∧ s.reg x = k
    | .stackOverflow => ∃ nnn n, i = .call nnn ∧ s.cfg.stackLimit = some n ∧ n ≤ s.stack.length

/-! ## Invariants -/

/-- The three invariants hold right after reset (at the values of Log 5, Log 6, Log 13, Log 24). -/
def Obligations.ResetMeetsInvariants : Prop :=
  State.reset.Inv ∧ State.reset.PcBounded ∧ State.reset.LatchWaits

/-- Memory stays canonical, the grid keeps its size and the stack its limit, in every cycle from every such state, a
faulting one included. The canonical form of memory is the model's (Log 7). -/
def Obligations.StepKeepsInv : Prop :=
  ∀ s : State, s.Inv → (∀ t, step s = .next t → t.Inv) ∧ ∀ f, step s = .fault f → f.frozen.Inv

/-- R13: PC stays at most 0x10FE and return addresses at most 0x1000, so no PC arithmetic of a cycle wraps. -/
def Obligations.StepKeepsPcBounded : Prop :=
  ∀ s : State, s.PcBounded →
    (∀ t, step s = .next t → t.PcBounded) ∧ ∀ f, step s = .fault f → f.frozen.PcBounded

/-- R22, R146: LATCH is held only while the machine waits with PC on an Fx0A word. -/
def Obligations.StepKeepsLatchWaits : Prop :=
  ∀ s : State, s.LatchWaits →
    (∀ t, step s = .next t → t.LatchWaits) ∧ ∀ f, step s = .fault f → f.frozen.LatchWaits

/-- R180, R184: after every legal sequence of host transactions, on a machine with parameters within R4's limits and
in whatever state it was, the three invariants hold. It rests on the reset values the spec decides (LATCH none, STACK
empty, pixels 0: its decision D4, Log 5); that reset is a transaction is its decision D32, and that a load stands only
directly after a reset its decision D21 (Log 22). -/
def Obligations.LegalHostRunsKeepInvariants : Prop :=
  ∀ (ts : List Transaction) (s : State), legal ts = true → s.cfg.wf →
    (transactAll ts s).Inv ∧ (transactAll ts s).PcBounded ∧ (transactAll ts s).LatchWaits

/-- R16, R4: no cycle changes a key or a parameter, a faulting one included. -/
def Obligations.StepKeepsKeysAndParameters : Prop :=
  ∀ s : State,
    (∀ t, step s = .next t → t.key = s.key ∧ t.cfg = s.cfg) ∧
    ∀ f, step s = .fault f → f.frozen.key = s.key ∧ f.frozen.cfg = s.cfg

/-! ## Rules over all instructions -/

/-- Every instruction that completes leaves unchanged every register and every part not listed as written by it: the
lists are `regsWritten` and `partsWritten`. They are the spec's for the spec's own state; RND's part `draws` (Log 2) and
DRW's part `events` (Log 3) are the model's own fields, and that CLS leaves `events` alone is the spec's decision D23
(Log 27). -/
def Obligations.EveryInstructionKeepsTheRest : Prop :=
  ∀ (i : Instr) (s t : State), exec i s = .next t → Frame (regsWritten i) (partsWritten i) s t

/-- R11, R187: a cycle that changes VF ran one of the flag-writing instructions, or one of the seven that write their
destination as plain data with x = F. -/
def Obligations.VfChangesOnlyByListedInstructions : Prop :=
  ∀ s t : State, step s = .next t → t.reg VF ≠ s.reg VF →
    ∃ i, s.nextInstr = some i ∧
      ((∃ x y, i = .orR x y ∨ i = .andR x y ∨ i = .xorR x y ∨ i = .addR x y ∨ i = .sub x y ∨ i = .shr x y ∨
          i = .subn x y ∨ i = .shl x y) ∨
        (∃ x y n, i = .drw x y n) ∨
        (∃ kk, i = .ldI VF kk ∨ i = .addI VF kk ∨ i = .rnd VF kk) ∨
        (∃ y, i = .ldR VF y) ∨ i = .ldVxDt VF ∨ i = .ldVxK VF ∨ i = .ldRegs VF)

/-- R15, R151: nothing reads ST; two machines that differ in ST only have cycles that differ in ST only. -/
def Obligations.SoundTimerIsNeverRead : Prop :=
  ∀ s t : State, SameButSt s t → SameOutcomeButSt (step s) (step t)

/-- R186: once PC is on a jump to its own address, any number of cycles leaves PC there and changes only the timers,
which count down to 0. That this ends a program is the spec's decision D33, that the timers tick once in each cycle its
decision D7 (Log 18). -/
def Obligations.JumpToSelfOnlyTicks : Prop :=
  ∀ (nnn : Addr12) (s : State), s.TerminatedAt nnn → ∀ k : Nat,
    ∃ t : State, Host.Core.run Sys2Proof.core k s = .next t ∧ t.TerminatedAt nnn ∧
      t.dt.toNat = s.dt.toNat - k ∧ t.st.toNat = s.st.toNat - k ∧ Frame [] [.dt, .st] s t

/-! ## Memory -/

/-- R46: a byte store in range is read back, changes no other byte and nothing else, and keeps memory canonical; out of
range it answers the address and changes nothing. The canonical form is the model's (Log 7). -/
def Obligations.ByteStoreReadsBack : Prop :=
  ∀ (s : State) (a : Nat) (b : Byte), Memory.wf s.cfg.font s.mem →
    (a < 4096 →
      ∃ t, memWrite8 s a b = .ok t ∧ t.byteAt a = b ∧ (∀ q, q ≠ a → t.byteAt q = s.byteAt q) ∧
        Memory.wf t.cfg.font t.mem ∧ Frame [] [.mem] s t) ∧
    (4096 ≤ a → memWrite8 s a b = .error a)

/-- R45: the 16-bit read is big-endian, and out of range answers the first address that does not exist (the spec's
decision D16). -/
def Obligations.WordReadIsBigEndian : Prop :=
  ∀ (s : State) (a : Nat),
    (a < 4095 → ∃ w, memRead16 s a = .ok w ∧ w.toNat = (s.byteAt a).toNat * 256 + (s.byteAt (a + 1)).toNat) ∧
    (a = 4095 → memRead16 s a = .error 4096) ∧ (4096 ≤ a → memRead16 s a = .error a)

/-- Two canonical memories that read the same everywhere are equal (the model's representation, Log 7). -/
def Obligations.CanonicalMemoriesAreEqual : Prop :=
  ∀ (font : Font) (m k : Memory), Memory.wf font m → Memory.wf font k →
    (∀ a, Memory.read font m a = Memory.read font k a) → m = k

/-- R56, R191: registers stored by Fx55 over the word at PC are the word the next fetch reads. -/
def Obligations.StoredBytesAreFetched : Prop :=
  ∀ (x : Reg) (s t : State) (r q : Reg), Memory.wf s.cfg.font s.mem → exec (.stRegs x) s = .next t →
    q ≤ x → q.val = r.val + 1 → t.pc.toNat = s.effAddr r.val → fetch t = .ok (wordOfBytes (s.reg r) (s.reg q))

/-! ## Control flow -/

/-- R90: RET moves the top of STACK to PC and removes only it; with STACK empty it faults. The record is the spec's
decision D15. -/
def Obligations.RetPopsTopOfStack : Prop :=
  ∀ s : State,
    (∀ a rest, s.stack = a :: rest →
      ∃ t, exec .ret s = .next t ∧ t.pc = a ∧ t.stack = rest ∧ Frame [] [.pc, .stack] s t) ∧
    (s.stack = [] → exec .ret s = .fault (.stackUnderflow (s.haltedBy .stackUnderflow 0x00EE)))

/-- R91: JP sets PC to nnn, zero-extended, and changes nothing else. -/
def Obligations.JpSetsPc : Prop :=
  ∀ (nnn : Addr12) (s : State),
    ∃ t, exec (.jp nnn) s = .next t ∧ t.pc.toNat = nnn.toNat ∧ Frame [] [.pc] s t

/-- R92: CALL pushes PC, the address after it, and jumps; a stack at its limit faults instead, nothing pushed. The
limit's fault is the spec's decision D3. -/
def Obligations.CallPushesReturnAddress : Prop :=
  ∀ (nnn : Addr12) (s : State),
    ((∀ n, s.cfg.stackLimit = some n → s.stack.length < n) →
      ∃ t, exec (.call nnn) s = .next t ∧ t.stack = s.pc :: s.stack ∧ t.pc.toNat = nnn.toNat ∧
        Frame [] [.pc, .stack] s t) ∧
    (∀ n, s.cfg.stackLimit = some n → n ≤ s.stack.length →
      exec (.call nnn) s = .fault (.stackOverflow (s.haltedBy .stackOverflow (encode (.call nnn)))))

/-- R97: Bnnn adds V0, whatever bits 11:8 are, and does not reduce the sum. -/
def Obligations.IndexedJumpAddsV0 : Prop :=
  ∀ (nnn : Addr12) (s : State),
    ∃ t, exec (.jpV0 nnn) s = .next t ∧ t.pc.toNat = nnn.toNat + (s.reg 0).toNat ∧ Frame [] [.pc] s t

/-- R93 to R96: the four comparing skips add 2 to PC exactly where their condition holds, and change nothing else. -/
def Obligations.SkipsFollowTheirCondition : Prop :=
  ∀ (x y : Reg) (kk : Byte) (s : State),
    (∃ t, exec (.seI x kk) s = .next t ∧ t.pc = (if s.reg x = kk then s.pc + 2 else s.pc) ∧ Frame [] [.pc] s t) ∧
    (∃ t, exec (.sneI x kk) s = .next t ∧ t.pc = (if s.reg x = kk then s.pc else s.pc + 2) ∧ Frame [] [.pc] s t) ∧
    (∃ t, exec (.seR x y) s = .next t ∧ t.pc = (if s.reg x = s.reg y then s.pc + 2 else s.pc) ∧
      Frame [] [.pc] s t) ∧
    (∃ t, exec (.sneR x y) s = .next t ∧ t.pc = (if s.reg x = s.reg y then s.pc else s.pc + 2) ∧
      Frame [] [.pc] s t)

/-! ## Registers and arithmetic -/

/-- R100, R101, R102: immediate load, immediate add modulo 256 with no flag, register copy; VF changes only as Vx. -/
def Obligations.LoadsAndImmediateAdd : Prop :=
  ∀ (x y : Reg) (kk : Byte) (s : State),
    (∃ t, exec (.ldI x kk) s = .next t ∧ t.reg x = kk ∧ Frame [x] [] s t) ∧
    (∃ t, exec (.addI x kk) s = .next t ∧ (t.reg x).toNat = ((s.reg x).toNat + kk.toNat) % 256 ∧
      Frame [x] [] s t) ∧
    (∃ t, exec (.ldR x y) s = .next t ∧ t.reg x = s.reg y ∧ Frame [x] [] s t)

/-- R103 to R105: OR, AND, XOR bit by bit, then VF is 0; with x = F the result is lost, which rests on R112's order of
writes (the spec's decision D6). -/
def Obligations.LogicClearsVf : Prop :=
  ∀ (x y : Reg) (s : State),
    (∃ t, exec (.orR x y) s = .next t ∧ t.reg VF = 0 ∧
      (x ≠ VF → ∀ k, (t.reg x).getLsbD k = ((s.reg x).getLsbD k || (s.reg y).getLsbD k)) ∧ Frame [x, VF] [] s t) ∧
    (∃ t, exec (.andR x y) s = .next t ∧ t.reg VF = 0 ∧
      (x ≠ VF → ∀ k, (t.reg x).getLsbD k = ((s.reg x).getLsbD k && (s.reg y).getLsbD k)) ∧ Frame [x, VF] [] s t) ∧
    (∃ t, exec (.xorR x y) s = .next t ∧ t.reg VF = 0 ∧
      (x ≠ VF → ∀ k, (t.reg x).getLsbD k = ((s.reg x).getLsbD k ^^ (s.reg y).getLsbD k)) ∧ Frame [x, VF] [] s t)

/-- R106: the sum modulo 256, and VF the carry, 1 exactly where the sum exceeds 255; with x = F only the carry stays
(R112, the spec's decision D6). -/
def Obligations.AddWritesCarry : Prop :=
  ∀ (x y : Reg) (s : State),
    ∃ t, exec (.addR x y) s = .next t ∧
      (x ≠ VF → (t.reg x).toNat = ((s.reg x).toNat + (s.reg y).toNat) % 256) ∧
      (t.reg VF).toNat = (if 255 < (s.reg x).toNat + (s.reg y).toNat then 1 else 0) ∧ Frame [x, VF] [] s t

/-- R107, R109: SUB is Vx − Vy and SUBN is Vy − Vx, modulo 256, and VF is 1 exactly where minuend ≥ subtrahend, from the
values before any write; with x = F only the flag stays (R112, the spec's decision D6; for SUBN "no borrow" is its
decision D28). -/
def Obligations.SubtractsWriteNotBorrow : Prop :=
  ∀ (x y : Reg) (s : State),
    (∃ t, exec (.sub x y) s = .next t ∧
      (x ≠ VF → ((t.reg x).toNat : Int) = ((s.reg x).toNat - (s.reg y).toNat : Int) % 256) ∧
      (t.reg VF).toNat = (if (s.reg y).toNat ≤ (s.reg x).toNat then 1 else 0) ∧ Frame [x, VF] [] s t) ∧
    (∃ t, exec (.subn x y) s = .next t ∧
      (x ≠ VF → ((t.reg x).toNat : Int) = ((s.reg y).toNat - (s.reg x).toNat : Int) % 256) ∧
      (t.reg VF).toNat = (if (s.reg x).toNat ≤ (s.reg y).toNat then 1 else 0) ∧ Frame [x, VF] [] s t)

/-- R108, R110: the shifts copy Vy and shift it by one, VF the bit shifted out. With x = F the flag itself is shifted,
so VF is 0 after 8Fy6 and twice bit 7 of Vy after 8FyE: the literal order of R112, the spec's decision D6 (Log 10). -/
def Obligations.ShiftsCopyThenShift : Prop :=
  ∀ (x y : Reg) (s : State),
    (∃ t, exec (.shr x y) s = .next t ∧
      (x ≠ VF → (t.reg x).toNat = (s.reg y).toNat / 2 ∧ (t.reg VF).toNat = (s.reg y).toNat % 2) ∧
      (x = VF → t.reg VF = 0) ∧ Frame [x, VF] [] s t) ∧
    (∃ t, exec (.shl x y) s = .next t ∧
      (x ≠ VF → (t.reg x).toNat = (s.reg y).toNat * 2 % 256 ∧ (t.reg VF).toNat = (s.reg y).toNat / 128) ∧
      (x = VF → (t.reg VF).toNat = (s.reg y).toNat / 128 * 2) ∧ Frame [x, VF] [] s t)

/-- R111: Cxkk writes the next free byte masked by kk, so no bit that kk has clear, and uses the byte up. That the byte
is `Config.rnd` of the counter `draws` is the model's choice (Log 2); the statement holds for every value of both. -/
def Obligations.RandomByteIsMasked : Prop :=
  ∀ (x : Reg) (kk : Byte) (s : State),
    ∃ t, exec (.rnd x kk) s = .next t ∧ t.reg x = Config.rnd s.draws &&& kk ∧
      (∀ k, kk.getLsbD k = false → (t.reg x).getLsbD k = false) ∧ t.draws = s.draws + 1 ∧ Frame [x] [.draws] s t

/-! ## Index register and memory transfer -/

/-- R120: Annn sets I to nnn, zero-extended, and changes nothing else. -/
def Obligations.IndexLoadSetsI : Prop :=
  ∀ (nnn : Addr12) (s : State),
    ∃ t, exec (.ldIdx nnn) s = .next t ∧ t.i.toNat = nnn.toNat ∧ Frame [] [.i] s t

/-- R121, R122: Fx1E adds Vx to I modulo 65536 with no flag (the wrap is the spec's decision D8); Fx29 sets I to Vx·5 +
0x50, Vx unmasked (its decision D29). -/
def Obligations.IndexAddAndGlyphAddress : Prop :=
  ∀ (x : Reg) (s : State),
    (∃ t, exec (.addIdx x) s = .next t ∧ t.i.toNat = (s.i.toNat + (s.reg x).toNat) % 65536 ∧ Frame [] [.i] s t) ∧
    (∃ t, exec (.ldF x) s = .next t ∧ t.i.toNat = (s.reg x).toNat * 5 + 0x50 ∧ Frame [] [.i] s t)

/-- R123: where I, I + 1, I + 2 exist, Fx33 stores the three decimal digits of Vx there and changes nothing else. -/
def Obligations.BcdStoresThreeDigits : Prop :=
  ∀ (x : Reg) (s : State), Memory.wf s.cfg.font s.mem → s.effAddr 2 < 4096 →
    ∃ t, exec (.ldB x) s = .next t ∧
      (t.byteAt (s.effAddr 0)).toNat = (s.reg x).toNat / 100 ∧
      (t.byteAt (s.effAddr 1)).toNat = (s.reg x).toNat / 10 % 10 ∧
      (t.byteAt (s.effAddr 2)).toNat = (s.reg x).toNat % 10 ∧
      (∀ a, (∀ k < 3, a ≠ s.effAddr k) → t.byteAt a = s.byteAt a) ∧ Frame [] [.mem] s t

/-- R124: where I to I + x exist, Fx55 stores V0 to Vx there, adds x + 1 to I, and changes nothing else. -/
def Obligations.RegisterBlockIsStored : Prop :=
  ∀ (x : Reg) (s : State), Memory.wf s.cfg.font s.mem → s.effAddr x.val < 4096 →
    ∃ t, exec (.stRegs x) s = .next t ∧
      (∀ r, r ≤ x → t.byteAt (s.effAddr r.val) = s.reg r) ∧
      (∀ a, (∀ k, k ≤ x.val → a ≠ s.effAddr k) → t.byteAt a = s.byteAt a) ∧
      t.i.toNat = s.i.toNat + x.val + 1 ∧ Frame [] [.mem, .i] s t

/-- R125: where I to I + x exist, Fx65 loads V0 to Vx from there, adds x + 1 to I, and changes nothing else. -/
def Obligations.RegisterBlockIsLoaded : Prop :=
  ∀ (x : Reg) (s : State), s.effAddr x.val < 4096 →
    ∃ t, exec (.ldRegs x) s = .next t ∧
      (∀ r, r ≤ x → t.reg r = s.byteAt (s.effAddr r.val)) ∧
      t.i.toNat = s.i.toNat + x.val + 1 ∧ Frame (regsUpTo x) [.i] s t

/-- R126, R161: a block transfer that runs past the end faults with the first address that does not exist; the bytes
stored or registers loaded before it stay so, I is unchanged, and nothing else but HALT changes. All of it is the
spec's decision D14. -/
def Obligations.BlockTransfersFaultPartway : Prop :=
  ∀ (x : Reg) (s : State), Memory.wf s.cfg.font s.mem →
    (4096 ≤ s.effAddr 2 →
      ∃ t, exec (.ldB x) s = .fault (.memOutOfBounds (firstOutOfRange (s.effAddr 0)) t) ∧
        t.halt = some ⟨.memOutOfBounds (firstOutOfRange (s.effAddr 0)), some (s.pc - 2), some (encode (.ldB x))⟩ ∧
        (∀ k (h : k < 3), s.effAddr k < 4096 → t.byteAt (s.effAddr k) = (bcdDigits (s.reg x))[k]'h) ∧
        (∀ a, (∀ k < 3, a ≠ s.effAddr k) → t.byteAt a = s.byteAt a) ∧ Frame [] [.mem, .halt] s t) ∧
    (4096 ≤ s.effAddr x.val →
      ∃ t, exec (.stRegs x) s = .fault (.memOutOfBounds (firstOutOfRange (s.effAddr 0)) t) ∧
        t.halt = some ⟨.memOutOfBounds (firstOutOfRange (s.effAddr 0)), some (s.pc - 2), some (encode (.stRegs x))⟩ ∧
        (∀ r, r ≤ x → s.effAddr r.val < 4096 → t.byteAt (s.effAddr r.val) = s.reg r) ∧
        (∀ a, (∀ k, k ≤ x.val → a ≠ s.effAddr k) → t.byteAt a = s.byteAt a) ∧ Frame [] [.mem, .halt] s t) ∧
    (4096 ≤ s.effAddr x.val →
      ∃ t, exec (.ldRegs x) s = .fault (.memOutOfBounds (firstOutOfRange (s.effAddr 0)) t) ∧
        t.halt = some ⟨.memOutOfBounds (firstOutOfRange (s.effAddr 0)), some (s.pc - 2), some (encode (.ldRegs x))⟩ ∧
        (∀ r, r ≤ x → t.reg r = if s.effAddr r.val < 4096 then s.byteAt (s.effAddr r.val) else s.reg r) ∧
        Frame (regsUpTo x) [.halt] s t)

/-! ## Display -/

/-- R131: FlipPixel inverts one pixel of the grid, answers its new value, and changes no other pixel. -/
def Obligations.FlipPixelTogglesOnePixel : Prop :=
  ∀ (w h : Nat) (g : Grid) (px py : Nat), Grid.shaped w h g → px < w → py < h →
    (flipPixel g px py).2 = !Grid.pixel g px py ∧
    ∀ qx qy, Grid.pixel (flipPixel g px py).1 qx qy =
      if qx = px ∧ qy = py then !Grid.pixel g px py else Grid.pixel g qx qy

/-- R132, R133: CLS puts every pixel to 0 and changes nothing else, VF and the events included (that it emits no
Refresh is the spec's decision D23). -/
def Obligations.ClsClearsEveryPixel : Prop :=
  ∀ s : State, ∃ t, exec .cls s = .next t ∧
    (∀ px py, px < s.cfg.displayW → py < s.cfg.displayH → t.pixel px py = false) ∧ Frame [] [.pix] s t

/-- R134 to R138: where every sprite byte exists, DRW inverts exactly the pixels inside the display whose sprite bit is
set, VF is 1 exactly where one of them was on, one Refresh is emitted, and nothing else changes; n = 0 included. Bit
order, VF = 0, reading all rows and n = 0 are the spec's decisions D12, D11, D13, D27 (Log 14, Log 27). -/
def Obligations.DrawTogglesSpriteBits : Prop :=
  ∀ (x y : Reg) (n : Nibble) (s : State), s.Inv → (∀ k < n.toNat, s.effAddr k < 4096) →
    ∃ t, exec (.drw x y n) s = .next t ∧
      (∀ px py, px < s.cfg.displayW → py < s.cfg.displayH →
        t.pixel px py = (s.pixel px py ^^ s.spriteBit x y n px py)) ∧
      ((∃ px py, px < s.cfg.displayW ∧ py < s.cfg.displayH ∧ s.pixel px py = true ∧ s.spriteBit x y n px py = true) →
        t.reg VF = 1) ∧
      ((∀ px py, px < s.cfg.displayW → py < s.cfg.displayH → s.pixel px py = true → s.spriteBit x y n px py = false) →
        t.reg VF = 0) ∧
      t.events = s.events ++ [.refresh] ∧ Frame [VF] [.pix, .events] s t

/-- R139: a DRW with a sprite byte past the end faults with the first address that does not exist and changes nothing
but HALT, clipped rows or not (the spec's decision D13). -/
def Obligations.DrawFaultsBeforeDrawing : Prop :=
  ∀ (x y : Reg) (n : Nibble) (s : State), (∃ k < n.toNat, 4096 ≤ s.effAddr k) →
    exec (.drw x y n) s = .fault (.memOutOfBounds (firstOutOfRange (s.effAddr 0))
      (s.haltedBy (.memOutOfBounds (firstOutOfRange (s.effAddr 0))) (encode (.drw x y n))))

/-- R134(g): drawing the same sprite twice at the same place restores the display, and the second draw collides where
the first turned a pixel on. The place is the same also with x = F or y = F where VF gives the same position. Bit order
and reading all rows are the spec's decisions D12, D13 (Log 14). -/
def Obligations.DrawTwiceRestoresDisplay : Prop :=
  ∀ (x y : Reg) (n : Nibble) (s t : State), s.Inv → exec (.drw x y n) s = .next t →
    t.spriteX x = s.spriteX x → t.spriteY y = s.spriteY y →
    ∃ u, exec (.drw x y n) t = .next u ∧ u.pix = s.pix ∧
      ((∃ px py, px < s.cfg.displayW ∧ py < s.cfg.displayH ∧ s.pixel px py = false ∧ s.spriteBit x y n px py = true) →
        u.reg VF = 1)

/-! ## Keys and timers -/

/-- R143 to R145: SKP skips where key Vx is down, SKNP where it is up; above 15 both fault with the key number and
change nothing but HALT (the spec's decision D9, Log 12). -/
def Obligations.KeySkipsFollowTheKey : Prop :=
  ∀ (x : Reg) (s : State),
    (∀ k : Key, (s.reg x).toNat = k.val →
      (∃ t, exec (.skp x) s = .next t ∧ t.pc = (if s.isDown k then s.pc + 2 else s.pc) ∧ Frame [] [.pc] s t) ∧
      (∃ t, exec (.sknp x) s = .next t ∧ t.pc = (if s.isDown k then s.pc else s.pc + 2) ∧ Frame [] [.pc] s t)) ∧
    (15 < (s.reg x).toNat →
      exec (.skp x) s =
        .fault (.keyIndexOutOfRange (s.reg x) (s.haltedBy (.keyIndexOutOfRange (s.reg x)) (encode (.skp x)))) ∧
      exec (.sknp x) s =
        .fault (.keyIndexOutOfRange (s.reg x) (s.haltedBy (.keyIndexOutOfRange (s.reg x)) (encode (.sknp x)))))

/-- R142, R146: the two-phase key wait. With nothing latched, the lowest key that is down is latched (the spec's decision
D10, Log 11) and PC goes back; with a key latched and down, PC goes back; with it up, its number goes to Vx, the latch
clears and PC stays past the instruction. -/
def Obligations.KeyWaitLatchesThenReleases : Prop :=
  ∀ (x : Reg) (s : State),
    (s.latch = none →
      ∃ t, exec (.ldVxK x) s = .next t ∧ t.pc = s.pc - 2 ∧
        ((∀ k, s.isDown k = false) → t.latch = none) ∧
        (∀ k, s.isDown k = true → (∀ j, j < k → s.isDown j = false) → t.latch = some k) ∧
        Frame [] [.pc, .latch] s t) ∧
    (∀ k, s.latch = some k → s.isDown k = true →
      ∃ t, exec (.ldVxK x) s = .next t ∧ t.pc = s.pc - 2 ∧ Frame [] [.pc] s t) ∧
    (∀ k, s.latch = some k → s.isDown k = false →
      ∃ t, exec (.ldVxK x) s = .next t ∧ (t.reg x).toNat = k.val ∧ t.latch = none ∧ Frame [x] [.latch] s t)

/-- R146, R189: a cycle of the key wait with no released key leaves PC on the same Fx0A word, ticks both timers, and
changes nothing else but the latch. That the timers tick once in each cycle is the spec's decision D7 (Log 18). -/
def Obligations.WaitingCycleRepeats : Prop :=
  ∀ (x : Reg) (s : State), s.halt = none → s.nextInstr = some (.ldVxK x) →
    (∀ k, s.latch = some k → s.isDown k = true) →
    ∃ t, step s = .next t ∧ t.pc = s.pc ∧ t.nextInstr = some (.ldVxK x) ∧ t.dt.toNat = s.dt.toNat - 1 ∧
      t.st.toNat = s.st.toNat - 1 ∧ Frame [] [.latch, .dt, .st] s t

/-- R148 to R150: Fx07 copies DT to Vx, Fx15 and Fx18 copy Vx to DT and ST; nothing else changes in the execute phase. -/
def Obligations.TimerMovesCopy : Prop :=
  ∀ (x : Reg) (s : State),
    (∃ t, exec (.ldVxDt x) s = .next t ∧ t.reg x = s.dt ∧ Frame [x] [] s t) ∧
    (∃ t, exec (.ldDtVx x) s = .next t ∧ t.dt = s.reg x ∧ Frame [] [.dt] s t) ∧
    (∃ t, exec (.ldStVx x) s = .next t ∧ t.st = s.reg x ∧ Frame [] [.st] s t)

/-! ## Host transactions -/

/-- R140: key_down and key_up set and clear their key and touch nothing else, LATCH included. -/
def Obligations.KeyEventsTouchOneKey : Prop :=
  ∀ (k : Key) (s : State),
    (∃ t, transact (.keyDown k) s = .next t ∧ t.isDown k = true ∧ (∀ j, j ≠ k → t.isDown j = s.isDown j) ∧
      Frame [] [.key] s t) ∧
    (∃ t, transact (.keyUp k) s = .next t ∧ t.isDown k = false ∧ (∀ j, j ≠ k → t.isDown j = s.isDown j) ∧
      Frame [] [.key] s t)

/-- R182: load puts an image of at most 3584 bytes, unmodified, from 0x200 and changes nothing else. The empty
image is the spec's decision D21; the form of memory is Log 7. -/
def Obligations.LoadPlacesImage : Prop :=
  ∀ (bytes : List Byte) (s : State), Memory.wf s.cfg.font s.mem → bytes.length ≤ 3584 →
    ∃ t, transact (.load bytes) s = .next t ∧
      (∀ k (h : k < bytes.length), t.byteAt (0x200 + k) = bytes[k]) ∧
      (∀ a, a < 0x200 ∨ 0x200 + bytes.length ≤ a → t.byteAt a = s.byteAt a) ∧ Frame [] [.mem] s t

/-- R163, R183: a longer image writes nothing and halts the machine with RomTooLarge; cycles then do nothing. That HALT
is set is the spec's decision D31. -/
def Obligations.OversizeLoadHalts : Prop :=
  ∀ (bytes : List Byte) (s : State), 3584 < bytes.length →
    ∃ t, transact (.load bytes) s = .fault (.romTooLarge bytes.length t) ∧
      t.halt = some ⟨.romTooLarge bytes.length, none, none⟩ ∧ Frame [] [.halt] s t ∧ step t = .next t

/-- R23, R180, R181: reset puts every element of the spec's state to its reset value whatever it was; the parameters
stay. Every value but PC's is the spec's decision D4, D5 or D15 (Log 5, Log 6); that the count of draws and the events
stay is the model's choice (Log 28). -/
def Obligations.ResetSetsEveryElement : Prop :=
  ∀ s : State, ∃ t, transact .reset s = .next t ∧ t.pc = 0x0200 ∧ (∀ r, t.reg r = 0) ∧ t.i = 0 ∧ t.stack = [] ∧
    t.dt = 0 ∧ t.st = 0 ∧ (∀ k, t.isDown k = false) ∧ t.latch = none ∧ (∀ px py, t.pixel px py = false) ∧
    (∀ k (h : k < 80), t.byteAt (0x050 + k) = s.cfg.font[k]) ∧
    (∀ a, a < 0x050 ∨ 0x0A0 ≤ a → t.byteAt a = 0) ∧ t.halt = none ∧ t.cfg = s.cfg ∧ t.draws = s.draws ∧
    t.events = s.events
end

