-- ==== Sys2Proof/Laws/Encoding.lean ====
section
/-! SUPPORT. What the fields of an encoded word are (spec/30_encoding.md R62, R63, R65), and that the bytes of a word
spell it again (R60). -/

namespace Sys2Proof

theorem append_toNat {m n : Nat} (a : BitVec m) (b : BitVec n) :
    (a ++ b).toNat = a.toNat * 2 ^ n + b.toNat := by
  rw [BitVec.toNat_append, ← Nat.shiftLeft_add_eq_or_of_lt b.isLt, Nat.shiftLeft_eq]

@[simp] theorem nibbleOf_toNat (r : Fin 16) : (nibbleOf r).toNat = r.val := rfl
@[simp] theorem indexOf_val (b : Nibble) : (indexOf b).val = b.toNat := rfl

theorem wordOfBytes_toNat (hi lo : Byte) : (wordOfBytes hi lo).toNat = hi.toNat * 256 + lo.toNat :=
  append_toNat hi lo

theorem formatNNN_toNat (c : Nibble) (a : Addr12) : (formatNNN c a).toNat = c.toNat * 4096 + a.toNat :=
  append_toNat c a

theorem formatXKK_toNat (c : Nibble) (x : Reg) (kk : Byte) :
    (formatXKK c x kk).toNat = c.toNat * 4096 + x.val * 256 + kk.toNat := by
  have h : (formatXKK c x kk).toNat = c.toNat * 2 ^ 12 + (nibbleOf x ++ kk).toNat := append_toNat c _
  rw [h, append_toNat, nibbleOf_toNat]; omega

theorem formatXYN_toNat (c : Nibble) (x y : Reg) (n : Nibble) :
    (formatXYN c x y n).toNat = c.toNat * 4096 + x.val * 256 + y.val * 16 + n.toNat := by
  have h : (formatXYN c x y n).toNat = c.toNat * 2 ^ 12 + (nibbleOf x ++ (nibbleOf y ++ n)).toNat :=
    append_toNat c _
  have h2 : (nibbleOf x ++ (nibbleOf y ++ n)).toNat = x.val * 2 ^ 8 + (nibbleOf y ++ n).toNat :=
    append_toNat (nibbleOf x) _
  rw [h, h2, append_toNat, nibbleOf_toNat]; omega

theorem catOf_toNat (w : Word) : (catOf w).toNat = w.toNat / 4096 := by
  have := w.isLt
  simp only [catOf, BitVec.extractLsb'_toNat, Nat.shiftRight_eq_div_pow]; omega

theorem xOf_val (w : Word) : (xOf w).val = w.toNat / 256 % 16 := by
  simp [xOf, BitVec.extractLsb'_toNat, Nat.shiftRight_eq_div_pow]

theorem yOf_val (w : Word) : (yOf w).val = w.toNat / 16 % 16 := by
  simp [yOf, BitVec.extractLsb'_toNat, Nat.shiftRight_eq_div_pow]

theorem nOf_toNat (w : Word) : (nOf w).toNat = w.toNat % 16 := by
  simp [nOf, BitVec.extractLsb'_toNat]

theorem kkOf_toNat (w : Word) : (kkOf w).toNat = w.toNat % 256 := by
  simp [kkOf, BitVec.extractLsb'_toNat]

theorem nnnOf_toNat (w : Word) : (nnnOf w).toNat = w.toNat % 4096 := by
  simp [nnnOf, BitVec.extractLsb'_toNat]

theorem highByte_toNat (w : Word) : (highByte w).toNat = w.toNat / 256 := by
  have := w.isLt
  simp only [highByte, BitVec.extractLsb'_toNat, Nat.shiftRight_eq_div_pow]; omega

theorem lowByte_toNat (w : Word) : (lowByte w).toNat = w.toNat % 256 := by
  simp [lowByte, BitVec.extractLsb'_toNat]

/-- R60: the high byte then the low byte spell the word. -/
@[simp] theorem wordOfBytes_high_low (w : Word) : wordOfBytes (highByte w) (lowByte w) = w := by
  apply BitVec.eq_of_toNat_eq
  rw [wordOfBytes_toNat, highByte_toNat, lowByte_toNat]; omega

/-! ## Fields of an encoded word -/

section Fields
variable (c : Nibble) (x y : Reg) (n : Nibble) (kk : Byte) (a : Addr12)

@[simp] theorem catOf_formatNNN : catOf (formatNNN c a) = c := by
  apply BitVec.eq_of_toNat_eq
  have := a.isLt
  rw [catOf_toNat, formatNNN_toNat]; omega

@[simp] theorem nnnOf_formatNNN : nnnOf (formatNNN c a) = a := by
  apply BitVec.eq_of_toNat_eq
  have := a.isLt
  rw [nnnOf_toNat, formatNNN_toNat]; omega

@[simp] theorem catOf_formatXKK : catOf (formatXKK c x kk) = c := by
  apply BitVec.eq_of_toNat_eq
  have := x.isLt; have := kk.isLt
  rw [catOf_toNat, formatXKK_toNat]; omega

@[simp] theorem xOf_formatXKK : xOf (formatXKK c x kk) = x := by
  apply Fin.ext
  have := x.isLt; have := kk.isLt
  rw [xOf_val, formatXKK_toNat]; omega

@[simp] theorem kkOf_formatXKK : kkOf (formatXKK c x kk) = kk := by
  apply BitVec.eq_of_toNat_eq
  have := kk.isLt
  rw [kkOf_toNat, formatXKK_toNat]; omega

@[simp] theorem catOf_formatXYN : catOf (formatXYN c x y n) = c := by
  apply BitVec.eq_of_toNat_eq
  have := x.isLt; have := y.isLt; have := n.isLt
  rw [catOf_toNat, formatXYN_toNat]; omega

@[simp] theorem xOf_formatXYN : xOf (formatXYN c x y n) = x := by
  apply Fin.ext
  have := x.isLt; have := y.isLt; have := n.isLt
  rw [xOf_val, formatXYN_toNat]; omega

@[simp] theorem yOf_formatXYN : yOf (formatXYN c x y n) = y := by
  apply Fin.ext
  have := y.isLt; have := n.isLt
  rw [yOf_val, formatXYN_toNat]; omega

@[simp] theorem nOf_formatXYN : nOf (formatXYN c x y n) = n := by
  apply BitVec.eq_of_toNat_eq
  have := n.isLt
  rw [nOf_toNat, formatXYN_toNat]; omega

end Fields

/-- The four fields of a word spell it again (R62). -/
@[simp] theorem rawFieldsOf_word (w : Word) : (rawFieldsOf w).word = w := by
  apply BitVec.eq_of_toNat_eq
  have := w.isLt
  simp only [RawFields.word, rawFieldsOf, BitVec.toNat_ofNat, catOf_toNat, xOf_val, yOf_val, nOf_toNat]
  omega

/-- The four fields of a word are in range (R62). -/
@[simp] theorem rawFieldsOf_inRange (w : Word) : (rawFieldsOf w).inRange = true := by
  simp [RawFields.inRange, rawFieldsOf, (catOf w).isLt, (nOf w).isLt]

/-- A word's fields are well formed exactly where a row of R67 selects the word. -/
theorem rawFieldsOf_wellFormed (w : Word) :
    (rawFieldsOf w).wellFormed = opcodeTable.any (·.selects w) := by
  simp [RawFields.wellFormed, RawFields.supported]

end Sys2Proof
end

