-- ==== Sys2Proof/Laws/State.lean ====
section
/-! SUPPORT. One lemma per field per update of State, true by rfl, and what the register and key accessors read after
an update. -/

namespace Sys2Proof.Machine

variable (s : State)

@[simp] theorem State.setReg_v (r : Reg) (b : Byte) : (s.setReg r b).v = s.v.set r.val b r.isLt := rfl
@[simp] theorem State.setReg_i (r : Reg) (b : Byte) : (s.setReg r b).i = s.i := rfl
@[simp] theorem State.setReg_pc (r : Reg) (b : Byte) : (s.setReg r b).pc = s.pc := rfl
@[simp] theorem State.setReg_stack (r : Reg) (b : Byte) : (s.setReg r b).stack = s.stack := rfl
@[simp] theorem State.setReg_dt (r : Reg) (b : Byte) : (s.setReg r b).dt = s.dt := rfl
@[simp] theorem State.setReg_st (r : Reg) (b : Byte) : (s.setReg r b).st = s.st := rfl
@[simp] theorem State.setReg_key (r : Reg) (b : Byte) : (s.setReg r b).key = s.key := rfl
@[simp] theorem State.setReg_latch (r : Reg) (b : Byte) : (s.setReg r b).latch = s.latch := rfl
@[simp] theorem State.setReg_pix (r : Reg) (b : Byte) : (s.setReg r b).pix = s.pix := rfl
@[simp] theorem State.setReg_mem (r : Reg) (b : Byte) : (s.setReg r b).mem = s.mem := rfl
@[simp] theorem State.setReg_halt (r : Reg) (b : Byte) : (s.setReg r b).halt = s.halt := rfl
@[simp] theorem State.setReg_cfg (r : Reg) (b : Byte) : (s.setReg r b).cfg = s.cfg := rfl
@[simp] theorem State.setReg_draws (r : Reg) (b : Byte) : (s.setReg r b).draws = s.draws := rfl
@[simp] theorem State.setReg_events (r : Reg) (b : Byte) : (s.setReg r b).events = s.events := rfl

@[simp] theorem State.setI_v (w : Word) : (s.setI w).v = s.v := rfl
@[simp] theorem State.setI_i (w : Word) : (s.setI w).i = w := rfl
@[simp] theorem State.setI_pc (w : Word) : (s.setI w).pc = s.pc := rfl
@[simp] theorem State.setI_stack (w : Word) : (s.setI w).stack = s.stack := rfl
@[simp] theorem State.setI_dt (w : Word) : (s.setI w).dt = s.dt := rfl
@[simp] theorem State.setI_st (w : Word) : (s.setI w).st = s.st := rfl
@[simp] theorem State.setI_key (w : Word) : (s.setI w).key = s.key := rfl
@[simp] theorem State.setI_latch (w : Word) : (s.setI w).latch = s.latch := rfl
@[simp] theorem State.setI_pix (w : Word) : (s.setI w).pix = s.pix := rfl
@[simp] theorem State.setI_mem (w : Word) : (s.setI w).mem = s.mem := rfl
@[simp] theorem State.setI_halt (w : Word) : (s.setI w).halt = s.halt := rfl
@[simp] theorem State.setI_cfg (w : Word) : (s.setI w).cfg = s.cfg := rfl
@[simp] theorem State.setI_draws (w : Word) : (s.setI w).draws = s.draws := rfl
@[simp] theorem State.setI_events (w : Word) : (s.setI w).events = s.events := rfl

@[simp] theorem State.setPc_v (w : Word) : (s.setPc w).v = s.v := rfl
@[simp] theorem State.setPc_i (w : Word) : (s.setPc w).i = s.i := rfl
@[simp] theorem State.setPc_pc (w : Word) : (s.setPc w).pc = w := rfl
@[simp] theorem State.setPc_stack (w : Word) : (s.setPc w).stack = s.stack := rfl
@[simp] theorem State.setPc_dt (w : Word) : (s.setPc w).dt = s.dt := rfl
@[simp] theorem State.setPc_st (w : Word) : (s.setPc w).st = s.st := rfl
@[simp] theorem State.setPc_key (w : Word) : (s.setPc w).key = s.key := rfl
@[simp] theorem State.setPc_latch (w : Word) : (s.setPc w).latch = s.latch := rfl
@[simp] theorem State.setPc_pix (w : Word) : (s.setPc w).pix = s.pix := rfl
@[simp] theorem State.setPc_mem (w : Word) : (s.setPc w).mem = s.mem := rfl
@[simp] theorem State.setPc_halt (w : Word) : (s.setPc w).halt = s.halt := rfl
@[simp] theorem State.setPc_cfg (w : Word) : (s.setPc w).cfg = s.cfg := rfl
@[simp] theorem State.setPc_draws (w : Word) : (s.setPc w).draws = s.draws := rfl
@[simp] theorem State.setPc_events (w : Word) : (s.setPc w).events = s.events := rfl

@[simp] theorem State.setStack_v (l : List Word) : (s.setStack l).v = s.v := rfl
@[simp] theorem State.setStack_i (l : List Word) : (s.setStack l).i = s.i := rfl
@[simp] theorem State.setStack_pc (l : List Word) : (s.setStack l).pc = s.pc := rfl
@[simp] theorem State.setStack_stack (l : List Word) : (s.setStack l).stack = l := rfl
@[simp] theorem State.setStack_dt (l : List Word) : (s.setStack l).dt = s.dt := rfl
@[simp] theorem State.setStack_st (l : List Word) : (s.setStack l).st = s.st := rfl
@[simp] theorem State.setStack_key (l : List Word) : (s.setStack l).key = s.key := rfl
@[simp] theorem State.setStack_latch (l : List Word) : (s.setStack l).latch = s.latch := rfl
@[simp] theorem State.setStack_pix (l : List Word) : (s.setStack l).pix = s.pix := rfl
@[simp] theorem State.setStack_mem (l : List Word) : (s.setStack l).mem = s.mem := rfl
@[simp] theorem State.setStack_halt (l : List Word) : (s.setStack l).halt = s.halt := rfl
@[simp] theorem State.setStack_cfg (l : List Word) : (s.setStack l).cfg = s.cfg := rfl
@[simp] theorem State.setStack_draws (l : List Word) : (s.setStack l).draws = s.draws := rfl
@[simp] theorem State.setStack_events (l : List Word) : (s.setStack l).events = s.events := rfl

@[simp] theorem State.setDt_v (b : Byte) : (s.setDt b).v = s.v := rfl
@[simp] theorem State.setDt_i (b : Byte) : (s.setDt b).i = s.i := rfl
@[simp] theorem State.setDt_pc (b : Byte) : (s.setDt b).pc = s.pc := rfl
@[simp] theorem State.setDt_stack (b : Byte) : (s.setDt b).stack = s.stack := rfl
@[simp] theorem State.setDt_dt (b : Byte) : (s.setDt b).dt = b := rfl
@[simp] theorem State.setDt_st (b : Byte) : (s.setDt b).st = s.st := rfl
@[simp] theorem State.setDt_key (b : Byte) : (s.setDt b).key = s.key := rfl
@[simp] theorem State.setDt_latch (b : Byte) : (s.setDt b).latch = s.latch := rfl
@[simp] theorem State.setDt_pix (b : Byte) : (s.setDt b).pix = s.pix := rfl
@[simp] theorem State.setDt_mem (b : Byte) : (s.setDt b).mem = s.mem := rfl
@[simp] theorem State.setDt_halt (b : Byte) : (s.setDt b).halt = s.halt := rfl
@[simp] theorem State.setDt_cfg (b : Byte) : (s.setDt b).cfg = s.cfg := rfl
@[simp] theorem State.setDt_draws (b : Byte) : (s.setDt b).draws = s.draws := rfl
@[simp] theorem State.setDt_events (b : Byte) : (s.setDt b).events = s.events := rfl

@[simp] theorem State.setSt_v (b : Byte) : (s.setSt b).v = s.v := rfl
@[simp] theorem State.setSt_i (b : Byte) : (s.setSt b).i = s.i := rfl
@[simp] theorem State.setSt_pc (b : Byte) : (s.setSt b).pc = s.pc := rfl
@[simp] theorem State.setSt_stack (b : Byte) : (s.setSt b).stack = s.stack := rfl
@[simp] theorem State.setSt_dt (b : Byte) : (s.setSt b).dt = s.dt := rfl
@[simp] theorem State.setSt_st (b : Byte) : (s.setSt b).st = b := rfl
@[simp] theorem State.setSt_key (b : Byte) : (s.setSt b).key = s.key := rfl
@[simp] theorem State.setSt_latch (b : Byte) : (s.setSt b).latch = s.latch := rfl
@[simp] theorem State.setSt_pix (b : Byte) : (s.setSt b).pix = s.pix := rfl
@[simp] theorem State.setSt_mem (b : Byte) : (s.setSt b).mem = s.mem := rfl
@[simp] theorem State.setSt_halt (b : Byte) : (s.setSt b).halt = s.halt := rfl
@[simp] theorem State.setSt_cfg (b : Byte) : (s.setSt b).cfg = s.cfg := rfl
@[simp] theorem State.setSt_draws (b : Byte) : (s.setSt b).draws = s.draws := rfl
@[simp] theorem State.setSt_events (b : Byte) : (s.setSt b).events = s.events := rfl

@[simp] theorem State.setKey_v (k : Key) (b : Bool) : (s.setKey k b).v = s.v := rfl
@[simp] theorem State.setKey_i (k : Key) (b : Bool) : (s.setKey k b).i = s.i := rfl
@[simp] theorem State.setKey_pc (k : Key) (b : Bool) : (s.setKey k b).pc = s.pc := rfl
@[simp] theorem State.setKey_stack (k : Key) (b : Bool) : (s.setKey k b).stack = s.stack := rfl
@[simp] theorem State.setKey_dt (k : Key) (b : Bool) : (s.setKey k b).dt = s.dt := rfl
@[simp] theorem State.setKey_st (k : Key) (b : Bool) : (s.setKey k b).st = s.st := rfl
@[simp] theorem State.setKey_key (k : Key) (b : Bool) : (s.setKey k b).key = s.key.set k.val b k.isLt := rfl
@[simp] theorem State.setKey_latch (k : Key) (b : Bool) : (s.setKey k b).latch = s.latch := rfl
@[simp] theorem State.setKey_pix (k : Key) (b : Bool) : (s.setKey k b).pix = s.pix := rfl
@[simp] theorem State.setKey_mem (k : Key) (b : Bool) : (s.setKey k b).mem = s.mem := rfl
@[simp] theorem State.setKey_halt (k : Key) (b : Bool) : (s.setKey k b).halt = s.halt := rfl
@[simp] theorem State.setKey_cfg (k : Key) (b : Bool) : (s.setKey k b).cfg = s.cfg := rfl
@[simp] theorem State.setKey_draws (k : Key) (b : Bool) : (s.setKey k b).draws = s.draws := rfl
@[simp] theorem State.setKey_events (k : Key) (b : Bool) : (s.setKey k b).events = s.events := rfl

@[simp] theorem State.setLatch_v (l : Option Key) : (s.setLatch l).v = s.v := rfl
@[simp] theorem State.setLatch_i (l : Option Key) : (s.setLatch l).i = s.i := rfl
@[simp] theorem State.setLatch_pc (l : Option Key) : (s.setLatch l).pc = s.pc := rfl
@[simp] theorem State.setLatch_stack (l : Option Key) : (s.setLatch l).stack = s.stack := rfl
@[simp] theorem State.setLatch_dt (l : Option Key) : (s.setLatch l).dt = s.dt := rfl
@[simp] theorem State.setLatch_st (l : Option Key) : (s.setLatch l).st = s.st := rfl
@[simp] theorem State.setLatch_key (l : Option Key) : (s.setLatch l).key = s.key := rfl
@[simp] theorem State.setLatch_latch (l : Option Key) : (s.setLatch l).latch = l := rfl
@[simp] theorem State.setLatch_pix (l : Option Key) : (s.setLatch l).pix = s.pix := rfl
@[simp] theorem State.setLatch_mem (l : Option Key) : (s.setLatch l).mem = s.mem := rfl
@[simp] theorem State.setLatch_halt (l : Option Key) : (s.setLatch l).halt = s.halt := rfl
@[simp] theorem State.setLatch_cfg (l : Option Key) : (s.setLatch l).cfg = s.cfg := rfl
@[simp] theorem State.setLatch_draws (l : Option Key) : (s.setLatch l).draws = s.draws := rfl
@[simp] theorem State.setLatch_events (l : Option Key) : (s.setLatch l).events = s.events := rfl

@[simp] theorem State.setPix_v (g : Grid) : (s.setPix g).v = s.v := rfl
@[simp] theorem State.setPix_i (g : Grid) : (s.setPix g).i = s.i := rfl
@[simp] theorem State.setPix_pc (g : Grid) : (s.setPix g).pc = s.pc := rfl
@[simp] theorem State.setPix_stack (g : Grid) : (s.setPix g).stack = s.stack := rfl
@[simp] theorem State.setPix_dt (g : Grid) : (s.setPix g).dt = s.dt := rfl
@[simp] theorem State.setPix_st (g : Grid) : (s.setPix g).st = s.st := rfl
@[simp] theorem State.setPix_key (g : Grid) : (s.setPix g).key = s.key := rfl
@[simp] theorem State.setPix_latch (g : Grid) : (s.setPix g).latch = s.latch := rfl
@[simp] theorem State.setPix_pix (g : Grid) : (s.setPix g).pix = g := rfl
@[simp] theorem State.setPix_mem (g : Grid) : (s.setPix g).mem = s.mem := rfl
@[simp] theorem State.setPix_halt (g : Grid) : (s.setPix g).halt = s.halt := rfl
@[simp] theorem State.setPix_cfg (g : Grid) : (s.setPix g).cfg = s.cfg := rfl
@[simp] theorem State.setPix_draws (g : Grid) : (s.setPix g).draws = s.draws := rfl
@[simp] theorem State.setPix_events (g : Grid) : (s.setPix g).events = s.events := rfl

@[simp] theorem State.setMem_v (m : Memory) : (s.setMem m).v = s.v := rfl
@[simp] theorem State.setMem_i (m : Memory) : (s.setMem m).i = s.i := rfl
@[simp] theorem State.setMem_pc (m : Memory) : (s.setMem m).pc = s.pc := rfl
@[simp] theorem State.setMem_stack (m : Memory) : (s.setMem m).stack = s.stack := rfl
@[simp] theorem State.setMem_dt (m : Memory) : (s.setMem m).dt = s.dt := rfl
@[simp] theorem State.setMem_st (m : Memory) : (s.setMem m).st = s.st := rfl
@[simp] theorem State.setMem_key (m : Memory) : (s.setMem m).key = s.key := rfl
@[simp] theorem State.setMem_latch (m : Memory) : (s.setMem m).latch = s.latch := rfl
@[simp] theorem State.setMem_pix (m : Memory) : (s.setMem m).pix = s.pix := rfl
@[simp] theorem State.setMem_mem (m : Memory) : (s.setMem m).mem = m := rfl
@[simp] theorem State.setMem_halt (m : Memory) : (s.setMem m).halt = s.halt := rfl
@[simp] theorem State.setMem_cfg (m : Memory) : (s.setMem m).cfg = s.cfg := rfl
@[simp] theorem State.setMem_draws (m : Memory) : (s.setMem m).draws = s.draws := rfl
@[simp] theorem State.setMem_events (m : Memory) : (s.setMem m).events = s.events := rfl

@[simp] theorem State.setHalt_v (h : Option FaultRecord) : (s.setHalt h).v = s.v := rfl
@[simp] theorem State.setHalt_i (h : Option FaultRecord) : (s.setHalt h).i = s.i := rfl
@[simp] theorem State.setHalt_pc (h : Option FaultRecord) : (s.setHalt h).pc = s.pc := rfl
@[simp] theorem State.setHalt_stack (h : Option FaultRecord) : (s.setHalt h).stack = s.stack := rfl
@[simp] theorem State.setHalt_dt (h : Option FaultRecord) : (s.setHalt h).dt = s.dt := rfl
@[simp] theorem State.setHalt_st (h : Option FaultRecord) : (s.setHalt h).st = s.st := rfl
@[simp] theorem State.setHalt_key (h : Option FaultRecord) : (s.setHalt h).key = s.key := rfl
@[simp] theorem State.setHalt_latch (h : Option FaultRecord) : (s.setHalt h).latch = s.latch := rfl
@[simp] theorem State.setHalt_pix (h : Option FaultRecord) : (s.setHalt h).pix = s.pix := rfl
@[simp] theorem State.setHalt_mem (h : Option FaultRecord) : (s.setHalt h).mem = s.mem := rfl
@[simp] theorem State.setHalt_halt (h : Option FaultRecord) : (s.setHalt h).halt = h := rfl
@[simp] theorem State.setHalt_cfg (h : Option FaultRecord) : (s.setHalt h).cfg = s.cfg := rfl
@[simp] theorem State.setHalt_draws (h : Option FaultRecord) : (s.setHalt h).draws = s.draws := rfl
@[simp] theorem State.setHalt_events (h : Option FaultRecord) : (s.setHalt h).events = s.events := rfl

@[simp] theorem State.setDraws_v (n : Nat) : (s.setDraws n).v = s.v := rfl
@[simp] theorem State.setDraws_i (n : Nat) : (s.setDraws n).i = s.i := rfl
@[simp] theorem State.setDraws_pc (n : Nat) : (s.setDraws n).pc = s.pc := rfl
@[simp] theorem State.setDraws_stack (n : Nat) : (s.setDraws n).stack = s.stack := rfl
@[simp] theorem State.setDraws_dt (n : Nat) : (s.setDraws n).dt = s.dt := rfl
@[simp] theorem State.setDraws_st (n : Nat) : (s.setDraws n).st = s.st := rfl
@[simp] theorem State.setDraws_key (n : Nat) : (s.setDraws n).key = s.key := rfl
@[simp] theorem State.setDraws_latch (n : Nat) : (s.setDraws n).latch = s.latch := rfl
@[simp] theorem State.setDraws_pix (n : Nat) : (s.setDraws n).pix = s.pix := rfl
@[simp] theorem State.setDraws_mem (n : Nat) : (s.setDraws n).mem = s.mem := rfl
@[simp] theorem State.setDraws_halt (n : Nat) : (s.setDraws n).halt = s.halt := rfl
@[simp] theorem State.setDraws_cfg (n : Nat) : (s.setDraws n).cfg = s.cfg := rfl
@[simp] theorem State.setDraws_draws (n : Nat) : (s.setDraws n).draws = n := rfl
@[simp] theorem State.setDraws_events (n : Nat) : (s.setDraws n).events = s.events := rfl

@[simp] theorem State.emit_v (e : Event) : (s.emit e).v = s.v := rfl
@[simp] theorem State.emit_i (e : Event) : (s.emit e).i = s.i := rfl
@[simp] theorem State.emit_pc (e : Event) : (s.emit e).pc = s.pc := rfl
@[simp] theorem State.emit_stack (e : Event) : (s.emit e).stack = s.stack := rfl
@[simp] theorem State.emit_dt (e : Event) : (s.emit e).dt = s.dt := rfl
@[simp] theorem State.emit_st (e : Event) : (s.emit e).st = s.st := rfl
@[simp] theorem State.emit_key (e : Event) : (s.emit e).key = s.key := rfl
@[simp] theorem State.emit_latch (e : Event) : (s.emit e).latch = s.latch := rfl
@[simp] theorem State.emit_pix (e : Event) : (s.emit e).pix = s.pix := rfl
@[simp] theorem State.emit_mem (e : Event) : (s.emit e).mem = s.mem := rfl
@[simp] theorem State.emit_halt (e : Event) : (s.emit e).halt = s.halt := rfl
@[simp] theorem State.emit_cfg (e : Event) : (s.emit e).cfg = s.cfg := rfl
@[simp] theorem State.emit_draws (e : Event) : (s.emit e).draws = s.draws := rfl
@[simp] theorem State.emit_events (e : Event) : (s.emit e).events = s.events ++ [e] := rfl

@[simp] theorem State.isDown_setReg (j : Key) (r : Reg) (b : Byte) : (s.setReg r b).isDown j = s.isDown j := rfl
@[simp] theorem State.byteAt_setReg (addr : Nat) (r : Reg) (b : Byte) : (s.setReg r b).byteAt addr = s.byteAt addr := rfl
@[simp] theorem State.pixel_setReg (px py : Nat) (r : Reg) (b : Byte) : (s.setReg r b).pixel px py = s.pixel px py := rfl
@[simp] theorem State.reg_setI (q : Reg) (w : Word) : (s.setI w).reg q = s.reg q := rfl
@[simp] theorem State.isDown_setI (j : Key) (w : Word) : (s.setI w).isDown j = s.isDown j := rfl
@[simp] theorem State.byteAt_setI (addr : Nat) (w : Word) : (s.setI w).byteAt addr = s.byteAt addr := rfl
@[simp] theorem State.pixel_setI (px py : Nat) (w : Word) : (s.setI w).pixel px py = s.pixel px py := rfl
@[simp] theorem State.reg_setPc (q : Reg) (w : Word) : (s.setPc w).reg q = s.reg q := rfl
@[simp] theorem State.isDown_setPc (j : Key) (w : Word) : (s.setPc w).isDown j = s.isDown j := rfl
@[simp] theorem State.byteAt_setPc (addr : Nat) (w : Word) : (s.setPc w).byteAt addr = s.byteAt addr := rfl
@[simp] theorem State.pixel_setPc (px py : Nat) (w : Word) : (s.setPc w).pixel px py = s.pixel px py := rfl
@[simp] theorem State.reg_setStack (q : Reg) (l : List Word) : (s.setStack l).reg q = s.reg q := rfl
@[simp] theorem State.isDown_setStack (j : Key) (l : List Word) : (s.setStack l).isDown j = s.isDown j := rfl
@[simp] theorem State.byteAt_setStack (addr : Nat) (l : List Word) : (s.setStack l).byteAt addr = s.byteAt addr := rfl
@[simp] theorem State.pixel_setStack (px py : Nat) (l : List Word) : (s.setStack l).pixel px py = s.pixel px py := rfl
@[simp] theorem State.reg_setDt (q : Reg) (b : Byte) : (s.setDt b).reg q = s.reg q := rfl
@[simp] theorem State.isDown_setDt (j : Key) (b : Byte) : (s.setDt b).isDown j = s.isDown j := rfl
@[simp] theorem State.byteAt_setDt (addr : Nat) (b : Byte) : (s.setDt b).byteAt addr = s.byteAt addr := rfl
@[simp] theorem State.pixel_setDt (px py : Nat) (b : Byte) : (s.setDt b).pixel px py = s.pixel px py := rfl
@[simp] theorem State.reg_setSt (q : Reg) (b : Byte) : (s.setSt b).reg q = s.reg q := rfl
@[simp] theorem State.isDown_setSt (j : Key) (b : Byte) : (s.setSt b).isDown j = s.isDown j := rfl
@[simp] theorem State.byteAt_setSt (addr : Nat) (b : Byte) : (s.setSt b).byteAt addr = s.byteAt addr := rfl
@[simp] theorem State.pixel_setSt (px py : Nat) (b : Byte) : (s.setSt b).pixel px py = s.pixel px py := rfl
@[simp] theorem State.reg_setKey (q : Reg) (k : Key) (b : Bool) : (s.setKey k b).reg q = s.reg q := rfl
@[simp] theorem State.byteAt_setKey (addr : Nat) (k : Key) (b : Bool) : (s.setKey k b).byteAt addr = s.byteAt addr := rfl
@[simp] theorem State.pixel_setKey (px py : Nat) (k : Key) (b : Bool) : (s.setKey k b).pixel px py = s.pixel px py := rfl
@[simp] theorem State.reg_setLatch (q : Reg) (l : Option Key) : (s.setLatch l).reg q = s.reg q := rfl
@[simp] theorem State.isDown_setLatch (j : Key) (l : Option Key) : (s.setLatch l).isDown j = s.isDown j := rfl
@[simp] theorem State.byteAt_setLatch (addr : Nat) (l : Option Key) : (s.setLatch l).byteAt addr = s.byteAt addr := rfl
@[simp] theorem State.pixel_setLatch (px py : Nat) (l : Option Key) : (s.setLatch l).pixel px py = s.pixel px py := rfl
@[simp] theorem State.reg_setPix (q : Reg) (g : Grid) : (s.setPix g).reg q = s.reg q := rfl
@[simp] theorem State.isDown_setPix (j : Key) (g : Grid) : (s.setPix g).isDown j = s.isDown j := rfl
@[simp] theorem State.byteAt_setPix (addr : Nat) (g : Grid) : (s.setPix g).byteAt addr = s.byteAt addr := rfl
@[simp] theorem State.reg_setMem (q : Reg) (m : Memory) : (s.setMem m).reg q = s.reg q := rfl
@[simp] theorem State.isDown_setMem (j : Key) (m : Memory) : (s.setMem m).isDown j = s.isDown j := rfl
@[simp] theorem State.pixel_setMem (px py : Nat) (m : Memory) : (s.setMem m).pixel px py = s.pixel px py := rfl
@[simp] theorem State.reg_setHalt (q : Reg) (h : Option FaultRecord) : (s.setHalt h).reg q = s.reg q := rfl
@[simp] theorem State.isDown_setHalt (j : Key) (h : Option FaultRecord) : (s.setHalt h).isDown j = s.isDown j := rfl
@[simp] theorem State.byteAt_setHalt (addr : Nat) (h : Option FaultRecord) : (s.setHalt h).byteAt addr = s.byteAt addr := rfl
@[simp] theorem State.pixel_setHalt (px py : Nat) (h : Option FaultRecord) : (s.setHalt h).pixel px py = s.pixel px py := rfl
@[simp] theorem State.reg_setDraws (q : Reg) (n : Nat) : (s.setDraws n).reg q = s.reg q := rfl
@[simp] theorem State.isDown_setDraws (j : Key) (n : Nat) : (s.setDraws n).isDown j = s.isDown j := rfl
@[simp] theorem State.byteAt_setDraws (addr : Nat) (n : Nat) : (s.setDraws n).byteAt addr = s.byteAt addr := rfl
@[simp] theorem State.pixel_setDraws (px py : Nat) (n : Nat) : (s.setDraws n).pixel px py = s.pixel px py := rfl
@[simp] theorem State.reg_emit (q : Reg) (e : Event) : (s.emit e).reg q = s.reg q := rfl
@[simp] theorem State.isDown_emit (j : Key) (e : Event) : (s.emit e).isDown j = s.isDown j := rfl
@[simp] theorem State.byteAt_emit (addr : Nat) (e : Event) : (s.emit e).byteAt addr = s.byteAt addr := rfl
@[simp] theorem State.pixel_emit (px py : Nat) (e : Event) : (s.emit e).pixel px py = s.pixel px py := rfl

/-- A register reads the last value written to it, and a write touches no other. -/
@[simp] theorem State.reg_setReg (q r : Reg) (b : Byte) :
    (s.setReg r b).reg q = if q = r then b else s.reg q := by
  by_cases h : q = r
  · subst h; simp [State.reg]
  · simp [State.reg, h, Vector.getElem_set_ne _ _ (fun e => h (Fin.ext e.symm))]

/-- A key reads as the last event on it left it, and an event touches no other key. -/
@[simp] theorem State.isDown_setKey (j k : Key) (b : Bool) :
    (s.setKey k b).isDown j = if j = k then b else s.isDown j := by
  by_cases h : j = k
  · subst h; simp [State.isDown]
  · simp [State.isDown, h, Vector.getElem_set_ne _ _ (fun e => h (Fin.ext e.symm))]

@[simp] theorem State.reg_setFlag (q : Reg) (b : Byte) :
    (s.setFlag b).reg q = if q = VF then b else s.reg q := State.reg_setReg s q VF b

end Sys2Proof.Machine
end

