-- ==== Sys2Proof/Laws/Memory.lean ====
section
/-! SUPPORT. Memory: a write is read back and touches no other byte, the canonical form is kept by every operation and
makes equal memories equal lists (spec/20_memory.md R44, R46, R52). -/

namespace Sys2Proof.Machine

variable (font : Font)

theorem resetByte_outside {a : Nat} (h : memSize ≤ a) : resetByte font a = 0 := by
  simp only [resetByte, memSize, fontBase, fontBytes] at *
  rw [dif_neg]; omega

theorem Memory.read_cell (m : Memory) (a : Nat) (b : Byte) :
    Memory.read font (Memory.cell font a b) a = b ∧
      ∀ q, q ≠ a → Memory.read font (Memory.cell font a b ++ m) q = Memory.read font m q := by
  unfold Memory.cell
  split
  · simp_all [Memory.read]
  · refine ⟨by simp [Memory.read], fun q hq => ?_⟩
    simp [Memory.read, Ne.symm hq]

/-- Where every listed address is above `a`, the byte at `a` is its reset contents. -/
theorem Memory.read_below {m : Memory} {a : Nat} (h : ∀ c ∈ m, a < c.1) :
    Memory.read font m a = resetByte font a := by
  induction m with
  | nil => rfl
  | cons c m ih =>
    have hc := h c (by simp)
    rw [Memory.read, if_neg (by omega), ih fun d hd => h d (by simp [hd])]

/-- In a rising list, the byte at `a` below or in front of the rest. -/
theorem Memory.read_cell_append {m : Memory} {a : Nat} (b : Byte) (h : ∀ c ∈ m, a < c.1) :
    Memory.read font (Memory.cell font a b ++ m) a = b := by
  unfold Memory.cell
  split
  · rename_i hb; rw [List.nil_append, Memory.read_below font h, hb]
  · simp [Memory.read]

/-- What a write reads as. -/
theorem Memory.read_write {m : Memory} (hm : m.Pairwise fun c d => c.1 < d.1) (a : Nat) (b : Byte) (q : Nat) :
    Memory.read font (Memory.write font m a b) q = if q = a then b else Memory.read font m q := by
  induction m with
  | nil =>
    rw [Memory.write]
    by_cases h : q = a
    · subst h; simpa using (Memory.read_cell font [] q b).1
    · simpa [h] using (Memory.read_cell font [] a b).2 q h
  | cons c m ih =>
    obtain ⟨hc, hm'⟩ := List.pairwise_cons.mp hm
    rw [Memory.write]
    split
    · rename_i hlt
      rw [Memory.read]
      by_cases h : c.1 = q
      · have hqa : q ≠ a := by omega
        simp [h, hqa, Memory.read]
      · rw [if_neg h, ih hm']
        simp [Memory.read, h]
    · split
      · rename_i _ heq
        by_cases h : q = a
        · subst h
          rw [Memory.read_cell_append font b (by simpa [heq] using hc), if_pos rfl]
        · rw [(Memory.read_cell font m a b).2 q h, if_neg h, Memory.read, if_neg (by omega)]
      · rename_i h1 h2
        have habove : ∀ d ∈ c :: m, a < d.1 := by
          intro d hd
          rcases List.mem_cons.mp hd with rfl | hd
          · omega
          · have := hc d hd; omega
        by_cases h : q = a
        · subst h
          rw [Memory.read_cell_append font b habove, if_pos rfl]
        · rw [(Memory.read_cell font (c :: m) a b).2 q h, if_neg h]

theorem Memory.mem_cell {a : Nat} {b : Byte} {c : Host.Cell} (h : c ∈ Memory.cell font a b) :
    c = (a, b) ∧ b ≠ resetByte font a := by
  unfold Memory.cell at h
  split at h
  · simp at h
  · exact ⟨by simpa using h, ‹_›⟩

/-- A listed byte after a write was listed before or is the one written. -/
theorem Memory.mem_write {m : Memory} {a : Nat} {b : Byte} {c : Host.Cell} (h : c ∈ Memory.write font m a b) :
    c ∈ m ∨ (c = (a, b) ∧ b ≠ resetByte font a) := by
  induction m with
  | nil => exact .inr (Memory.mem_cell font h)
  | cons d m ih =>
    rw [Memory.write] at h
    split at h
    · rcases List.mem_cons.mp h with rfl | h
      · simp
      · rcases ih h with h | h <;> simp [h]
    · split at h <;> rcases List.mem_append.mp h with h | h
      · exact .inr (Memory.mem_cell font h)
      · simp [h]
      · exact .inr (Memory.mem_cell font h)
      · exact .inl h

theorem Memory.cell_append_pairwise {m : Memory} {a : Nat} (b : Byte) (h : ∀ c ∈ m, a < c.1)
    (hm : m.Pairwise fun c d => c.1 < d.1) : (Memory.cell font a b ++ m).Pairwise fun c d => c.1 < d.1 := by
  unfold Memory.cell
  split
  · exact hm
  · exact List.pairwise_cons.mpr ⟨h, hm⟩

/-- A write keeps the list rising. -/
theorem Memory.write_pairwise {m : Memory} (hm : m.Pairwise fun c d => c.1 < d.1) (a : Nat) (b : Byte) :
    (Memory.write font m a b).Pairwise fun c d => c.1 < d.1 := by
  induction m with
  | nil => simpa [Memory.write] using Memory.cell_append_pairwise font b (m := []) (by simp) .nil
  | cons c m ih =>
    obtain ⟨hc, hm'⟩ := List.pairwise_cons.mp hm
    rw [Memory.write]
    split
    · rename_i hlt
      refine List.pairwise_cons.mpr ⟨fun d hd => ?_, ih hm'⟩
      rcases Memory.mem_write font hd with hd | ⟨rfl, -⟩
      · exact hc d hd
      · exact hlt
    · split
      · rename_i heq
        exact Memory.cell_append_pairwise font b (by simpa [heq] using hc) hm'
      · refine Memory.cell_append_pairwise font b (fun d hd => ?_) hm
        rcases List.mem_cons.mp hd with rfl | hd
        · omega
        · have := hc d hd; omega

/-- A write in range keeps the canonical form. -/
theorem Memory.wf_write {m : Memory} (h : Memory.wf font m) {a : Nat} (ha : a < memSize) (b : Byte) :
    Memory.wf font (Memory.write font m a b) := by
  refine ⟨Memory.write_pairwise font h.1 a b, fun c hc => ?_⟩
  rcases Memory.mem_write font hc with hc | ⟨rfl, hb⟩
  · exact h.2 c hc
  · exact ⟨ha, hb⟩

/-- The byte a canonical memory holds outside the address space. -/
theorem Memory.read_outside {m : Memory} (h : Memory.wf font m) {a : Nat} (ha : memSize ≤ a) :
    Memory.read font m a = 0 := by
  rw [← resetByte_outside font ha]
  induction m with
  | nil => rfl
  | cons c m ih =>
    have hc := (h.2 c (by simp)).1
    have hw : Memory.wf font m := ⟨(List.pairwise_cons.mp h.1).2, fun d hd => h.2 d (by simp [hd])⟩
    rw [Memory.read, if_neg (by omega), ih hw]

end Sys2Proof.Machine
end

