-- ==== Sys2Proof/Laws/Ops.lean ====
section
/-! SUPPORT. One lemma for each shared operation that says everything it can do: register and memory accesses, block
stores and loads, faults, the call stack, pixels, the key latch, the fetch. -/

namespace Sys2Proof.Machine

/-! ## Outcomes -/

@[simp] theorem andThen_next (s : State) (f : State → Result) : andThen (.next s) f = f s := rfl
@[simp] theorem andThen_fault (e : Fault) (f : State → Result) : andThen (.fault e) f = .fault e := rfl
@[simp] theorem andThen_refused (e : Refusal) (f : State → Result) : andThen (.refused e) f = .refused e := rfl

theorem andThen_eq_next {r : Result} {f : State → Result} {t : State} :
    andThen r f = .next t ↔ ∃ s, r = .next s ∧ f s = .next t := by
  cases r <;> simp [andThen]

theorem andThen_eq_fault {r : Result} {f : State → Result} {e : Fault} :
    andThen r f = .fault e ↔ r = .fault e ∨ ∃ s, r = .next s ∧ f s = .fault e := by
  cases r <;> simp [andThen]

@[simp] theorem Fault.frozen_ofCause (c : Cause) (s : State) : (Fault.ofCause c s).frozen = s := by cases c <;> rfl
@[simp] theorem Fault.cause_ofCause (c : Cause) (s : State) : (Fault.ofCause c s).cause = c := by cases c <;> rfl

/-- `raise` answers a fault that carries the machine with the record latched and nothing else changed (R167). -/
theorem raise_eq_fault {c : Cause} {p w : Option Word} {s : State} {f : Fault} :
    raise c p w s = .fault f ↔ f = Fault.ofCause c (s.setHalt (some ⟨c, p, w⟩)) := by
  simp [raise, eq_comm]

@[simp] theorem raise_ne_next (c : Cause) (p w : Option Word) (s t : State) : raise c p w s ≠ .next t := nofun
@[simp] theorem raiseExec_ne_next (c : Cause) (w : Word) (s t : State) : raiseExec w c s ≠ .next t := nofun
@[simp] theorem andThen_raiseExec (c : Cause) (w : Word) (s : State) (f : State → Result) :
    andThen (raiseExec w c s) f = raiseExec w c s := rfl

/-! ## Single accesses -/

theorem memRead8_ok {s : State} {a : Nat} (h : a < memSize) : memRead8 s a = .ok (s.byteAt a) := if_pos h
theorem memRead8_error {s : State} {a : Nat} (h : memSize ≤ a) : memRead8 s a = .error a := if_neg (by omega)

/-- `MemRead(a, 2)`: the big-endian word, or the first address out of range (R45). -/
theorem memRead16_eq (s : State) (a : Nat) :
    memRead16 s a =
      if a + 1 < memSize then .ok (wordOfBytes (s.byteAt a) (s.byteAt (a + 1))) else .error (max a memSize) := by
  unfold memRead16
  by_cases h : a + 1 < memSize
  · simp [memRead8_ok (s := s) (show a < memSize by omega), memRead8_ok h, h]
  · rw [if_neg h]
    by_cases h' : a < memSize
    · rw [memRead8_ok h', memRead8_error (by omega)]
      simp only [Except.error.injEq]; omega
    · rw [memRead8_error (by omega)]
      simp only [Except.error.injEq]; omega

theorem memWrite8_ok {s : State} {a : Nat} (h : a < memSize) (b : Byte) : memWrite8 s a b = .ok (s.putByte a b) :=
  if_pos h
theorem memWrite8_error {s : State} {a : Nat} (h : memSize ≤ a) (b : Byte) : memWrite8 s a b = .error a :=
  if_neg (by omega)

/-- A stored byte is read back and no other byte changes. -/
theorem byteAt_putByte {s : State} (hm : s.mem.Pairwise fun c d => c.1 < d.1) (a : Nat) (b : Byte) (q : Nat) :
    (s.putByte a b).byteAt q = if q = a then b else s.byteAt q :=
  Memory.read_write _ hm a b q

/-! ## Blocks -/

/-- What a block store does: the bytes that are in range land, memory stays canonical, nothing else changes; it
completes where all are in range and otherwise raises with the first address that is not (R50, R126). -/
theorem storeBytes_spec (w : Word) (bs : List Byte) (a : Nat) (s : State)
    (hm : s.mem.Pairwise fun c d => c.1 < d.1) :
    ∃ m : Memory,
      (m.Pairwise fun c d => c.1 < d.1) ∧
      (Memory.wf s.cfg.font s.mem → Memory.wf s.cfg.font m) ∧
      (∀ q, Memory.read s.cfg.font m q =
        if a ≤ q ∧ q < a + bs.length ∧ q < memSize then bs.getD (q - a) 0 else s.byteAt q) ∧
      storeBytes w bs a s =
        if bs = [] ∨ a + bs.length ≤ memSize then .next (s.setMem m)
        else raiseExec w (.memOutOfBounds (max a memSize)) (s.setMem m) := by
  induction bs generalizing a s with
  | nil =>
    refine ⟨s.mem, hm, id, fun q => ?_, by simp [storeBytes, State.setMem]⟩
    rw [if_neg (by simp; omega)]; rfl
  | cons b bs ih =>
    by_cases ha : a < memSize
    · have hm' : (s.putByte a b).mem.Pairwise fun c d => c.1 < d.1 := Memory.write_pairwise _ hm a b
      obtain ⟨m, h1, h2, h3, h4⟩ := ih (a + 1) (s.putByte a b) hm'
      refine ⟨m, h1, fun h => h2 (Memory.wf_write _ h ha b), fun q => ?_, ?_⟩
      · have e : Memory.read s.cfg.font m q = Memory.read (s.putByte a b).cfg.font m q := rfl
        rw [e, h3, byteAt_putByte hm]
        by_cases hq : q = a
        · subst hq
          rw [if_neg (by omega), if_pos rfl, if_pos (by simp; omega)]; simp
        · rw [if_neg hq]
          by_cases hr : a + 1 ≤ q ∧ q < a + 1 + bs.length ∧ q < memSize
          · rw [if_pos hr, if_pos (by simp; omega)]
            have : q - a = (q - (a + 1)) + 1 := by omega
            simp [this]
          · rw [if_neg hr, if_neg (by simp; omega)]
      · rw [storeBytes, memWrite8_ok ha]
        simp only [h4]
        have e : (s.putByte a b).setMem m = s.setMem m := rfl
        rw [e]
        by_cases hr : bs = [] ∨ a + 1 + bs.length ≤ memSize
        · rw [if_pos hr, if_pos]
          rcases hr with rfl | hr
          · right; simp; omega
          · right; simp; omega
        · rw [if_neg hr, if_neg]
          · congr 2; omega
          · simp at hr ⊢; omega
    · refine ⟨s.mem, hm, id, fun q => ?_, ?_⟩
      · rw [if_neg (by omega)]; rfl
      · rw [storeBytes, memWrite8_error (by omega), if_neg (by simp; omega)]
        have : max a memSize = a := by omega
        rw [this]; rfl

/-- What a block load does: the registers whose bytes are in range are loaded, nothing else changes; it completes where
all are in range and otherwise raises with the first address that is not (R50, R126). -/
theorem loadRegs_spec (w : Word) (rs : List Reg) (hr : rs.Nodup) (a : Nat) (s : State) :
    ∃ u : State,
      u = { s with v := u.v } ∧
      (∀ r, r ∉ rs → u.reg r = s.reg r) ∧
      (∀ k (h : k < rs.length), u.reg rs[k] = if a + k < memSize then s.byteAt (a + k) else s.reg rs[k]) ∧
      loadRegs w rs a s =
        if rs = [] ∨ a + rs.length ≤ memSize then .next u
        else raiseExec w (.memOutOfBounds (max a memSize)) u := by
  induction rs generalizing a s with
  | nil => exact ⟨s, rfl, by simp, by simp, by simp [loadRegs]⟩
  | cons r rs ih =>
    obtain ⟨hnot, hr'⟩ := List.nodup_cons.mp hr
    by_cases ha : a < memSize
    · obtain ⟨u, h1, h2, h3, h4⟩ := ih hr' (a + 1) (s.setReg r (s.byteAt a))
      refine ⟨u, by rw [h1]; rfl, fun q hq => ?_, fun k hk => ?_, ?_⟩
      · have hq' : q ≠ r ∧ q ∉ rs := by simpa using hq
        rw [h2 q hq'.2, State.reg_setReg, if_neg hq'.1]
      · cases k with
        | zero => simp [h2 r hnot, ha]
        | succ k =>
          have hk' : k < rs.length := by simpa using hk
          have hne : rs[k] ≠ r := fun e => hnot (e ▸ List.getElem_mem hk')
          have := h3 k hk'
          simp only [State.byteAt_setReg, State.reg_setReg, if_neg hne] at this
          simp only [List.getElem_cons_succ, this]
          have e : a + 1 + k = a + (k + 1) := by omega
          rw [e]
      · rw [loadRegs, memRead8_ok ha]
        simp only [h4]
        by_cases hl : rs = [] ∨ a + 1 + rs.length ≤ memSize
        · rw [if_pos hl, if_pos]
          rcases hl with rfl | hl
          · right; simp; omega
          · right; simp; omega
        · rw [if_neg hl, if_neg]
          · congr 2; omega
          · simp at hl ⊢; omega
    · refine ⟨s, rfl, by simp, fun k hk => ?_, ?_⟩
      · rw [if_neg (by omega)]
      · rw [loadRegs, memRead8_error (by omega), if_neg (by simp; omega)]
        have : max a memSize = a := by omega
        rw [this]

/-- What reading a block gives: its bytes in order where all are in range, else the first address that is not. -/
theorem readBytes_eq (s : State) (n a : Nat) :
    readBytes s n a =
      if n = 0 ∨ a + n ≤ memSize then .ok ((List.range' a n).map s.byteAt) else .error (max a memSize) := by
  induction n generalizing a with
  | zero => simp [readBytes]
  | succ n ih =>
    by_cases ha : a < memSize
    · rw [readBytes, memRead8_ok ha, ih]
      by_cases hl : n = 0 ∨ a + 1 + n ≤ memSize
      · rw [if_pos hl, if_pos (by omega)]; simp [List.range'_succ]
      · rw [if_neg hl, if_neg (by omega)]
        simp only [Except.error.injEq]; omega
    · rw [readBytes, memRead8_error (by omega), if_neg (by omega)]
      simp only [Except.error.injEq]; omega

/-! ## Registers V0 to Vx -/

theorem regsUpTo_nodup (x : Reg) : (regsUpTo x).Nodup := by revert x; decide
@[simp] theorem regsUpTo_length (x : Reg) : (regsUpTo x).length = x.val + 1 := by revert x; decide
theorem mem_regsUpTo {x r : Reg} : r ∈ regsUpTo x ↔ r ≤ x := by revert x r; decide
theorem regsUpTo_getElem {x : Reg} {k : Nat} (h : k < (regsUpTo x).length) :
    (regsUpTo x)[k] = ⟨k, by have := x.isLt; simp at h; omega⟩ := by
  have hx := x.isLt
  have h' : k < x.val + 1 := by simpa using h
  have hk : k < 16 := by omega
  simp only [regsUpTo, List.getElem_take]
  have : ∀ j : Fin 16, allRegs[j.val]'(by simp [allRegs]) = j := by decide
  exact this ⟨k, hk⟩

/-! ## The call stack and PC -/

/-- `Push(a)` adds a on top where the stack is not full, and faults otherwise (R14, R166). -/
theorem push_eq (w a : Word) (s : State) :
    push w a s = if s.stackFull then raiseExec w .stackOverflow s else .next (s.setStack (a :: s.stack)) := rfl

theorem stackFull_iff (s : State) : s.stackFull = true ↔ ∃ n ∈ s.cfg.stackLimit, n ≤ s.stack.length := by
  unfold State.stackFull
  split <;> simp_all

/-- `Pop()` answers next exactly where the stack holds an element, which goes to PC (R14, R90). -/
theorem popToPc_eq_next {w : Word} {s t : State} :
    popToPc w s = .next t ↔ ∃ a rest, s.stack = a :: rest ∧ t = (s.setStack rest).setPc a := by
  unfold popToPc
  split <;> simp_all [eq_comm, raiseExec, raise]

theorem popToPc_eq_fault {w : Word} {s : State} {f : Fault} :
    popToPc w s = .fault f ↔ s.stack = [] ∧ raiseExec w .stackUnderflow s = .fault f := by
  unfold popToPc
  split <;> simp_all

@[simp] theorem skipIf_pc (s : State) (c : Bool) : (s.skipIf c).pc = if c then s.pc + 2 else s.pc := by
  cases c <;> rfl

/-- A skip changes PC only (R89). -/
theorem skipIf_eq (s : State) (c : Bool) : s.skipIf c = s.setPc (if c then s.pc + 2 else s.pc) := by
  cases c <;> rfl

/-! ## Pixels -/

theorem blankGrid_shaped (w h : Nat) : Grid.shaped w h (blankGrid w h) := by
  refine ⟨by simp [blankGrid], fun row hrow => ?_⟩
  rw [List.eq_of_mem_replicate hrow]; simp

@[simp] theorem blankGrid_pixel (w h px py : Nat) : Grid.pixel (blankGrid w h) px py = false := by
  unfold Grid.pixel blankGrid
  by_cases h1 : py < h <;> by_cases h2 : px < w <;> simp [h1, h2]

theorem Grid.toggle_shaped {w h : Nat} {g : Grid} (hg : Grid.shaped w h g) (px py : Nat) :
    Grid.shaped w h (Grid.toggle g px py) := by
  refine ⟨by simp [Grid.toggle, hg.1], fun row hrow => ?_⟩
  obtain ⟨k, hk, rfl⟩ := List.getElem_of_mem hrow
  have hk' : k < g.length := by simpa [Grid.toggle] using hk
  simp only [Grid.toggle, List.getElem_modify]
  have := hg.2 _ (List.getElem_mem hk')
  split <;> simp [this]

/-- A toggle inverts its pixel and no other (R131). -/
theorem Grid.pixel_toggle {w h : Nat} {g : Grid} (hg : Grid.shaped w h g) {px py : Nat} (hx : px < w) (hy : py < h)
    (qx qy : Nat) :
    Grid.pixel (Grid.toggle g px py) qx qy =
      if qx = px ∧ qy = py then !Grid.pixel g px py else Grid.pixel g qx qy := by
  have hlen := hg.1
  unfold Grid.pixel Grid.toggle
  rw [List.getElem?_modify]
  by_cases hqy : qy = py
  · subst hqy
    have hl : qy < g.length := by omega
    have hrow : (g[qy]).length = w := hg.2 _ (List.getElem_mem hl)
    simp only [List.getElem?_eq_getElem hl, if_true, and_true, Option.map_eq_map, Option.map_some]
    rw [List.getElem?_modify]
    by_cases hqx : qx = px
    · subst hqx
      simp [List.getElem?_eq_getElem (show qx < (g[qy]).length by omega)]
    · simp [hqx, Ne.symm hqx]
  · simp [hqy, Ne.symm hqy]

/-- What flipping a list of distinct pixels inside the grid does: each is inverted, no other changes, the grid keeps its
shape, and the flag records whether one of them was on (R131, R134). -/
theorem flipAll_spec {w h : Nat} (ps : List (Nat × Nat)) (hn : ps.Nodup) (hin : ∀ p ∈ ps, p.1 < w ∧ p.2 < h)
    (g : Grid) (hg : Grid.shaped w h g) (hit : Bool) :
    Grid.shaped w h (flipAll ps g hit).1 ∧
    (∀ px py, Grid.pixel (flipAll ps g hit).1 px py = (Grid.pixel g px py ^^ decide ((px, py) ∈ ps))) ∧
    (flipAll ps g hit).2 = (hit || ps.any fun p => Grid.pixel g p.1 p.2) := by
  induction ps generalizing g hit with
  | nil => exact ⟨hg, by simp [flipAll], by simp [flipAll]⟩
  | cons p ps ih =>
    obtain ⟨hnot, hn'⟩ := List.nodup_cons.mp hn
    have hp := hin p (by simp)
    have hg' := Grid.toggle_shaped hg p.1 p.2
    have ht := Grid.pixel_toggle hg hp.1 hp.2
    obtain ⟨h1, h2, h3⟩ :=
      ih hn' (fun q hq => hin q (by simp [hq])) (flipPixel g p.1 p.2).1 hg' (hit || !(flipPixel g p.1 p.2).2)
    refine ⟨h1, fun px py => ?_, ?_⟩
    · rw [flipAll, h2]
      simp only [flipPixel, ht]
      by_cases he : px = p.1 ∧ py = p.2
      · obtain ⟨rfl, rfl⟩ := he
        simp [hnot]
      · have hne : (px, py) ≠ p := fun e => he ⟨congrArg Prod.fst e, congrArg Prod.snd e⟩
        simp [he, hne]
    · rw [flipAll, h3]
      simp only [flipPixel, ht, and_self, if_true, Bool.not_not, List.any_cons, Bool.or_assoc]
      congr 2
      apply Bool.eq_iff_iff.mpr
      simp only [List.any_eq_true]
      constructor
      · rintro ⟨q, hq, hv⟩
        refine ⟨q, hq, ?_⟩
        have hne : ¬ (q.1 = p.1 ∧ q.2 = p.2) := fun e => hnot (by rw [← Prod.ext e.1 e.2]; exact hq)
        rwa [if_neg hne] at hv
      · rintro ⟨q, hq, hv⟩
        refine ⟨q, hq, ?_⟩
        have hne : ¬ (q.1 = p.1 ∧ q.2 = p.2) := fun e => hnot (by rw [← Prod.ext e.1 e.2]; exact hq)
        rwa [if_neg hne]

/-! ## Key latch, timers -/

/-- `PollRelease()` changes LATCH only, and answers a key only where the latched key is up (R142). -/
theorem pollRelease_eq (s : State) :
    pollRelease s =
      match s.latch with
      | none => (s.setLatch s.firstDown, none)
      | some k => if s.isDown k then (s, none) else (s.setLatch none, some k) := by
  cases hl : s.latch with
  | none =>
    have e : s.setLatch none = s := by rw [← hl]; rfl
    cases hf : s.firstDown <;> simp [pollRelease, hl, hf, e]
  | some k => simp [pollRelease, hl]

theorem tick_toNat (b : Byte) : (tick b).toNat = b.toNat - 1 := by
  unfold tick
  split
  · simp_all
  · rename_i h
    have hb : b.toNat ≠ 0 := fun e => h (BitVec.eq_of_toNat_eq (by simpa using e))
    have := b.isLt
    have h1 : (1 : Byte).toNat = 1 := rfl
    rw [BitVec.toNat_sub, h1]; omega

/-! ## Fetch -/

/-- The fetch gives the big-endian word at PC where both bytes exist, else the first address that does not (R81). -/
theorem fetch_eq (s : State) :
    fetch s =
      if s.pc.toNat + 1 < memSize then .ok (wordOfBytes (s.byteAt s.pc.toNat) (s.byteAt (s.pc.toNat + 1)))
      else .error (max s.pc.toNat memSize) := memRead16_eq s _

end Sys2Proof.Machine
end

