-- ==== Sys2Proof/Laws/PerInstr.lean ====
section
/-! SUPPORT. Per instruction: its encoding selects its own row of spec/30_encoding.md R67 and its fields are well
formed. -/

namespace Sys2Proof

section Masks
variable (c : Nibble) (x y : Reg) (n : Nibble) (kk : Byte) (a : Addr12)

theorem append_and {m k : Nat} (p q : BitVec m) (r s : BitVec k) : (p ++ r) &&& (q ++ s) = (p &&& q) ++ (r &&& s) := by
  apply BitVec.eq_of_getLsbD_eq
  intro i hi
  simp only [BitVec.getLsbD_and, BitVec.getLsbD_append]
  split <;> rfl

theorem and_none {m : Nat} (p : BitVec m) : p &&& 0 = 0 := BitVec.and_zero

/-- A mask that keeps the category only. -/
theorem formatNNN_mask : formatNNN c a &&& 0xF000 = formatNNN c 0 := by
  have h : (0xF000 : Word) = (0xF : Nibble) ++ (0 : Addr12) := rfl
  have h1 : c &&& 0xF = c := BitVec.and_allOnes
  rw [h, formatNNN, append_and, h1, and_none]; rfl

/-- A mask that keeps the category only. -/
theorem formatXKK_mask : formatXKK c x kk &&& 0xF000 = formatXKK c 0 0 :=
  (formatNNN_mask c (nibbleOf x ++ kk)).trans rfl

/-- A mask that keeps the category only. -/
theorem formatXYN_mask : formatXYN c x y n &&& 0xF000 = formatXYN c 0 0 0 :=
  (formatNNN_mask c (nibbleOf x ++ (nibbleOf y ++ n))).trans rfl

/-- A mask that keeps the category and the low byte. -/
theorem formatXKK_maskLow : formatXKK c x kk &&& 0xF0FF = formatXKK c 0 kk := by
  have h : (0xF0FF : Word) = (0xF : Nibble) ++ ((0 : Nibble) ++ (0xFF : Byte)) := rfl
  have h1 : c &&& 0xF = c := BitVec.and_allOnes
  have h2 : kk &&& 0xFF = kk := BitVec.and_allOnes
  have h3 : formatXKK c x kk &&& ((0xF : Nibble) ++ ((0 : Nibble) ++ (0xFF : Byte))) =
      (c &&& 0xF) ++ ((nibbleOf x ++ kk) &&& ((0 : Nibble) ++ (0xFF : Byte))) := append_and _ _ _ _
  rw [h, h3, append_and, h1, h2, and_none]; rfl

/-- A mask that keeps the category and the low nibble. -/
theorem formatXYN_maskLow : formatXYN c x y n &&& 0xF00F = formatXYN c 0 0 n := by
  have h : (0xF00F : Word) = (0xF : Nibble) ++ ((0 : Nibble) ++ ((0 : Nibble) ++ (0xF : Nibble))) := rfl
  have h1 : c &&& 0xF = c := BitVec.and_allOnes
  have h2 : n &&& 0xF = n := BitVec.and_allOnes
  have h3 : formatXYN c x y n &&& ((0xF : Nibble) ++ ((0 : Nibble) ++ ((0 : Nibble) ++ (0xF : Nibble)))) =
      (c &&& 0xF) ++ ((nibbleOf x ++ (nibbleOf y ++ n)) &&& ((0 : Nibble) ++ ((0 : Nibble) ++ (0xF : Nibble)))) :=
    append_and _ _ _ _
  have h4 : (nibbleOf x ++ (nibbleOf y ++ n)) &&& ((0 : Nibble) ++ ((0 : Nibble) ++ (0xF : Nibble))) =
      (nibbleOf x &&& 0) ++ ((nibbleOf y ++ n) &&& ((0 : Nibble) ++ (0xF : Nibble))) := append_and _ _ _ _
  rw [h, h3, h4, append_and, h1, h2, and_none, and_none]; rfl

end Masks

namespace Laws.EncodesToRow

/-- The instruction's word selects the row of R67 that bears its mnemonic, and its fields are well formed. -/
def Statement (i : Instr) : Prop :=
  (∃ r ∈ opcodeTable, r.mnemonic = i.mnemonic ∧ r.selects (encode i) = true) ∧ i.wellFormed = true

theorem of_row {i : Instr} (r : OpcodeRow) (hm : r ∈ opcodeTable) (hn : r.mnemonic = i.mnemonic)
    (h : encode i &&& r.mask = r.pattern) : Statement i := by
  have hs : r.selects (encode i) = true := by simp [OpcodeRow.selects, h]
  refine ⟨⟨r, hm, hn, hs⟩, ?_⟩
  rw [Instr.wellFormed, rawFieldsOf_wellFormed, List.any_eq_true]
  exact ⟨r, hm, hs⟩

theorem cls : Statement (.cls) :=
  of_row ⟨"CLS", 0x00E0, 0xFFFF⟩ (List.mem_of_getElem? (i := 0) rfl) rfl rfl

theorem ret : Statement (.ret) :=
  of_row ⟨"RET", 0x00EE, 0xFFFF⟩ (List.mem_of_getElem? (i := 1) rfl) rfl rfl

theorem jp (nnn : Addr12) : Statement (.jp nnn) :=
  of_row ⟨"JP", 0x1000, 0xF000⟩ (List.mem_of_getElem? (i := 2) rfl) rfl (formatNNN_mask _ _)

theorem call (nnn : Addr12) : Statement (.call nnn) :=
  of_row ⟨"CALL", 0x2000, 0xF000⟩ (List.mem_of_getElem? (i := 3) rfl) rfl (formatNNN_mask _ _)

theorem seI (x : Reg) (kk : Byte) : Statement (.seI x kk) :=
  of_row ⟨"SE_I", 0x3000, 0xF000⟩ (List.mem_of_getElem? (i := 4) rfl) rfl (formatXKK_mask _ _ _)

theorem sneI (x : Reg) (kk : Byte) : Statement (.sneI x kk) :=
  of_row ⟨"SNE_I", 0x4000, 0xF000⟩ (List.mem_of_getElem? (i := 5) rfl) rfl (formatXKK_mask _ _ _)

theorem seR (x y : Reg) : Statement (.seR x y) :=
  of_row ⟨"SE_R", 0x5000, 0xF00F⟩ (List.mem_of_getElem? (i := 6) rfl) rfl (formatXYN_maskLow _ _ _ _)

theorem sneR (x y : Reg) : Statement (.sneR x y) :=
  of_row ⟨"SNE_R", 0x9000, 0xF00F⟩ (List.mem_of_getElem? (i := 7) rfl) rfl (formatXYN_maskLow _ _ _ _)

theorem ldI (x : Reg) (kk : Byte) : Statement (.ldI x kk) :=
  of_row ⟨"LD_I", 0x6000, 0xF000⟩ (List.mem_of_getElem? (i := 8) rfl) rfl (formatXKK_mask _ _ _)

theorem addI (x : Reg) (kk : Byte) : Statement (.addI x kk) :=
  of_row ⟨"ADD_I", 0x7000, 0xF000⟩ (List.mem_of_getElem? (i := 9) rfl) rfl (formatXKK_mask _ _ _)

theorem ldR (x y : Reg) : Statement (.ldR x y) :=
  of_row ⟨"LD_R", 0x8000, 0xF00F⟩ (List.mem_of_getElem? (i := 10) rfl) rfl (formatXYN_maskLow _ _ _ _)

theorem orR (x y : Reg) : Statement (.orR x y) :=
  of_row ⟨"OR", 0x8001, 0xF00F⟩ (List.mem_of_getElem? (i := 11) rfl) rfl (formatXYN_maskLow _ _ _ _)

theorem andR (x y : Reg) : Statement (.andR x y) :=
  of_row ⟨"AND", 0x8002, 0xF00F⟩ (List.mem_of_getElem? (i := 12) rfl) rfl (formatXYN_maskLow _ _ _ _)

theorem xorR (x y : Reg) : Statement (.xorR x y) :=
  of_row ⟨"XOR", 0x8003, 0xF00F⟩ (List.mem_of_getElem? (i := 13) rfl) rfl (formatXYN_maskLow _ _ _ _)

theorem addR (x y : Reg) : Statement (.addR x y) :=
  of_row ⟨"ADD_R", 0x8004, 0xF00F⟩ (List.mem_of_getElem? (i := 14) rfl) rfl (formatXYN_maskLow _ _ _ _)

theorem sub (x y : Reg) : Statement (.sub x y) :=
  of_row ⟨"SUB", 0x8005, 0xF00F⟩ (List.mem_of_getElem? (i := 15) rfl) rfl (formatXYN_maskLow _ _ _ _)

theorem shr (x y : Reg) : Statement (.shr x y) :=
  of_row ⟨"SHR", 0x8006, 0xF00F⟩ (List.mem_of_getElem? (i := 16) rfl) rfl (formatXYN_maskLow _ _ _ _)

theorem subn (x y : Reg) : Statement (.subn x y) :=
  of_row ⟨"SUBN", 0x8007, 0xF00F⟩ (List.mem_of_getElem? (i := 17) rfl) rfl (formatXYN_maskLow _ _ _ _)

theorem shl (x y : Reg) : Statement (.shl x y) :=
  of_row ⟨"SHL", 0x800E, 0xF00F⟩ (List.mem_of_getElem? (i := 18) rfl) rfl (formatXYN_maskLow _ _ _ _)

theorem ldIdx (nnn : Addr12) : Statement (.ldIdx nnn) :=
  of_row ⟨"LD_IDX", 0xA000, 0xF000⟩ (List.mem_of_getElem? (i := 19) rfl) rfl (formatNNN_mask _ _)

theorem jpV0 (nnn : Addr12) : Statement (.jpV0 nnn) :=
  of_row ⟨"JP_V0", 0xB000, 0xF000⟩ (List.mem_of_getElem? (i := 20) rfl) rfl (formatNNN_mask _ _)

theorem rnd (x : Reg) (kk : Byte) : Statement (.rnd x kk) :=
  of_row ⟨"RND", 0xC000, 0xF000⟩ (List.mem_of_getElem? (i := 21) rfl) rfl (formatXKK_mask _ _ _)

theorem drw (x y : Reg) (n : Nibble) : Statement (.drw x y n) :=
  of_row ⟨"DRW", 0xD000, 0xF000⟩ (List.mem_of_getElem? (i := 22) rfl) rfl (formatXYN_mask _ _ _ _)

theorem skp (x : Reg) : Statement (.skp x) :=
  of_row ⟨"SKP", 0xE09E, 0xF0FF⟩ (List.mem_of_getElem? (i := 23) rfl) rfl (formatXKK_maskLow _ _ _)

theorem sknp (x : Reg) : Statement (.sknp x) :=
  of_row ⟨"SKNP", 0xE0A1, 0xF0FF⟩ (List.mem_of_getElem? (i := 24) rfl) rfl (formatXKK_maskLow _ _ _)

theorem ldVxDt (x : Reg) : Statement (.ldVxDt x) :=
  of_row ⟨"LD_VX_DT", 0xF007, 0xF0FF⟩ (List.mem_of_getElem? (i := 25) rfl) rfl (formatXKK_maskLow _ _ _)

theorem ldDtVx (x : Reg) : Statement (.ldDtVx x) :=
  of_row ⟨"LD_DT_VX", 0xF015, 0xF0FF⟩ (List.mem_of_getElem? (i := 26) rfl) rfl (formatXKK_maskLow _ _ _)

theorem ldStVx (x : Reg) : Statement (.ldStVx x) :=
  of_row ⟨"LD_ST_VX", 0xF018, 0xF0FF⟩ (List.mem_of_getElem? (i := 27) rfl) rfl (formatXKK_maskLow _ _ _)

theorem ldVxK (x : Reg) : Statement (.ldVxK x) :=
  of_row ⟨"LD_VX_K", 0xF00A, 0xF0FF⟩ (List.mem_of_getElem? (i := 28) rfl) rfl (formatXKK_maskLow _ _ _)

theorem addIdx (x : Reg) : Statement (.addIdx x) :=
  of_row ⟨"ADD_IDX", 0xF01E, 0xF0FF⟩ (List.mem_of_getElem? (i := 29) rfl) rfl (formatXKK_maskLow _ _ _)

theorem ldF (x : Reg) : Statement (.ldF x) :=
  of_row ⟨"LD_F", 0xF029, 0xF0FF⟩ (List.mem_of_getElem? (i := 30) rfl) rfl (formatXKK_maskLow _ _ _)

theorem ldB (x : Reg) : Statement (.ldB x) :=
  of_row ⟨"LD_B", 0xF033, 0xF0FF⟩ (List.mem_of_getElem? (i := 31) rfl) rfl (formatXKK_maskLow _ _ _)

theorem stRegs (x : Reg) : Statement (.stRegs x) :=
  of_row ⟨"ST_REGS", 0xF055, 0xF0FF⟩ (List.mem_of_getElem? (i := 32) rfl) rfl (formatXKK_maskLow _ _ _)

theorem ldRegs (x : Reg) : Statement (.ldRegs x) :=
  of_row ⟨"LD_REGS", 0xF065, 0xF0FF⟩ (List.mem_of_getElem? (i := 33) rfl) rfl (formatXKK_maskLow _ _ _)

end Laws.EncodesToRow

end Sys2Proof
end

