-- ==== Sys2Proof/Laws/Step.lean ====
section
/-! SUPPORT. Everything one cycle can do (spec/40_cycle.md R80 to R88). -/

namespace Sys2Proof.Machine

theorem decodeWord_eq (w : Word) :
    decodeWord w = match decode? w with | some i => .ok i | none => .error (.unsupported w) := rfl

/-- A cycle that does not raise is one of three: a halted machine unchanged, an instruction and the tick, an unsupported
word and the tick. -/
theorem step_eq_next {s t : State} :
    step s = .next t ↔
      (s.halt ≠ none ∧ t = s) ∨
      (s.halt = none ∧ ∃ w, fetch s = .ok w ∧
        ((∃ i u, decode? w = some i ∧ exec i s.advancePc = .next u ∧ t = u.tickTimers) ∨
          (decode? w = none ∧ t = (s.advancePc.emit (.unsupported w s.pc)).tickTimers))) := by
  unfold step
  cases hh : s.halt with
  | some r => simp [eq_comm]
  | none =>
    cases hf : fetch s with
    | error a => simp
    | ok w =>
      cases hd : decode? w with
      | none => simp [cycleOf, decodeWord_eq, hd, tickAfter, eq_comm]
      | some i => simp [cycleOf, decodeWord_eq, hd, tickAfter, andThen_eq_next, eq_comm (a := t)]

/-- A cycle that raises: the fetch's fault with PC not advanced, or the instruction's own (R81, R86). -/
theorem step_eq_fault {s : State} {f : Fault} :
    step s = .fault f ↔
      s.halt = none ∧
        ((∃ a, fetch s = .error a ∧ raise (.memOutOfBounds a) (some s.pc) none s = .fault f) ∨
          ∃ w i, fetch s = .ok w ∧ decode? w = some i ∧ exec i s.advancePc = .fault f) := by
  unfold step
  cases hh : s.halt with
  | some r => simp
  | none =>
    cases hf : fetch s with
    | error a => simp
    | ok w =>
      cases hd : decode? w with
      | none => simp [cycleOf, decodeWord_eq, hd, tickAfter]
      | some i => simp [cycleOf, decodeWord_eq, hd, tickAfter, andThen_eq_fault]

section Ticked
variable (s : State)
@[simp] theorem tickTimers_dt : s.tickTimers.dt = tick s.dt := rfl
@[simp] theorem tickTimers_st : s.tickTimers.st = tick s.st := rfl
@[simp] theorem tickTimers_reg (r : Reg) : s.tickTimers.reg r = s.reg r := rfl
@[simp] theorem tickTimers_i : s.tickTimers.i = s.i := rfl
@[simp] theorem tickTimers_pc : s.tickTimers.pc = s.pc := rfl
@[simp] theorem tickTimers_stack : s.tickTimers.stack = s.stack := rfl
@[simp] theorem tickTimers_key : s.tickTimers.key = s.key := rfl
@[simp] theorem tickTimers_isDown (k : Key) : s.tickTimers.isDown k = s.isDown k := rfl
@[simp] theorem tickTimers_latch : s.tickTimers.latch = s.latch := rfl
@[simp] theorem tickTimers_pix : s.tickTimers.pix = s.pix := rfl
@[simp] theorem tickTimers_pixel (px py : Nat) : s.tickTimers.pixel px py = s.pixel px py := rfl
@[simp] theorem tickTimers_mem : s.tickTimers.mem = s.mem := rfl
@[simp] theorem tickTimers_byteAt (a : Nat) : s.tickTimers.byteAt a = s.byteAt a := rfl
@[simp] theorem tickTimers_halt : s.tickTimers.halt = s.halt := rfl
@[simp] theorem tickTimers_cfg : s.tickTimers.cfg = s.cfg := rfl
@[simp] theorem tickTimers_draws : s.tickTimers.draws = s.draws := rfl
@[simp] theorem tickTimers_events : s.tickTimers.events = s.events := rfl
end Ticked

end Sys2Proof.Machine
end

