-- ==== Sys2Proof/Tests/Slice0.lean ====
section
/-! SUPPORT. The model's own tests. The expected values come from spec/95_test_vectors.md (S1 to S12, T1 to T164),
from the encodings of spec/30_encoding.md R62 to R70, or by hand from the rule named. The last part has, for every
statement with hypotheses, a state and operands that meet them. -/

namespace Sys2Proof.Tests
open Sys2Proof Sys2Proof.Machine

-- One theorem at a time: `decide +kernel` waits for all checks before it, and each waiting theorem holds a thread.
set_option Elab.async false

/-! ## Well-formedness: each check refuses an ill-formed term -/

theorem test_wf_accepts : RawFields.wellFormed ⟨0xD, 1, 2, 0xF⟩ = true := by decide
theorem test_wf_refuses_cat : RawFields.wellFormed ⟨16, 1, 2, 3⟩ = false := by decide
theorem test_wf_refuses_x : RawFields.wellFormed ⟨6, 16, 2, 3⟩ = false := by decide
theorem test_wf_refuses_y : RawFields.wellFormed ⟨6, 1, 16, 3⟩ = false := by decide
theorem test_wf_refuses_n : RawFields.wellFormed ⟨6, 1, 2, 16⟩ = false := by decide
theorem test_wf_refuses_unsupported : RawFields.wellFormed ⟨8, 1, 2, 8⟩ = false := by decide

/-! ## Decoding: words written out from R65's formats and R67's patterns -/

/-- S12 (R62, R63): the fields of 0xD12F and 0x8AB4. -/
theorem test_fields :
    (catOf 0xD12F, xOf 0xD12F, yOf 0xD12F, nOf 0xD12F, kkOf 0xD12F, nnnOf 0xD12F) =
      (0xD, 1, 2, 0xF, 0x2F, 0x12F) ∧
    (catOf 0x8AB4, xOf 0x8AB4, yOf 0x8AB4, nOf 0x8AB4, kkOf 0x8AB4, nnnOf 0x8AB4) =
      (0x8, 10, 11, 0x4, 0xB4, 0xAB4) := by decide

/-- Control flow; CALL 0xABC bit by bit: cat 0010, nnn 1010 1011 1100. -/
theorem test_decode_control :
    [0x00E0, 0x00EE, 0x1ABC, 0b0010101010111100, 0x3142, 0x4143, 0x5120, 0x9120].map decode? =
      [some .cls, some .ret, some (.jp 0xABC), some (.call 0xABC), some (.seI 1 0x42), some (.sneI 1 0x43),
        some (.seR 1 2), some (.sneR 1 2)] := by decide

/-- Loads and arithmetic; ADD VA, VB bit by bit: cat 1000, x 1010, y 1011, n 0100. -/
theorem test_decode_alu :
    [0x6A2F, 0x7302, 0x8120, 0x8121, 0x8122, 0x8123, 0b1000101010110100, 0x8125, 0x8126, 0x8127, 0x812E].map decode? =
      [some (.ldI 10 0x2F), some (.addI 3 0x02), some (.ldR 1 2), some (.orR 1 2), some (.andR 1 2),
        some (.xorR 1 2), some (.addR 10 11), some (.sub 1 2), some (.shr 1 2), some (.subn 1 2),
        some (.shl 1 2)] := by decide

/-- Rows 20 to 25; DRW V1, V2, 15 bit by bit: cat 1101, x 0001, y 0010, n 1111, and SKP V4: 1110 0100 1001 1110. -/
theorem test_decode_misc :
    [0xA300, 0xB204, 0xCA0F, 0b1101000100101111, 0b1110010010011110, 0xE4A1].map decode? =
      [some (.ldIdx 0x300), some (.jpV0 0x204), some (.rnd 10 0x0F), some (.drw 1 2 0xF), some (.skp 4),
        some (.sknp 4)] := by decide

/-- Category F; LD [I], V3 bit by bit: cat 1111, x 0011, kk 0101 0101, and LD V1, DT: 1111 0001 0000 0111. -/
theorem test_decode_f :
    [0b1111000100000111, 0xF015, 0xF118, 0xF50A, 0xF11E, 0xF029, 0xF233, 0b1111001101010101, 0xF265].map decode? =
      [some (.ldVxDt 1), some (.ldDtVx 0), some (.ldStVx 1), some (.ldVxK 5), some (.addIdx 1), some (.ldF 0),
        some (.ldB 2), some (.stRegs 3), some (.ldRegs 2)] := by decide

/-- T1 to T10 and S10: words of no row are rejected (R70). -/
theorem test_decode_rejects :
    [0x0000, 0x0123, 0x00E1, 0x01E0, 0x0FEE, 0x5121, 0x9AB1, 0x8128, 0x812F, 0xE19F, 0xE100, 0xF100, 0xF1FF, 0xF10B,
      0xF156].map decode? = List.replicate 15 none := by decide

theorem test_decode_truncated : decodeBytes [0x12] = .error .truncated := by rfl

/-- S12: 0x8AB4 is stored high byte first. -/
theorem test_encode_bytes : encodeBytes (.addR 10 11) = [0x8A, 0xB4] := by decide

theorem test_decode_table_word : decodeTableWord 16 0x8AB4 = some (.addR 10 11) := by decide

/-! ## Small states -/

/-- Registers set, the rest as after reset. -/
def regs (l : List (Reg × Byte)) : State := l.foldl (fun t p => t.setReg p.1 p.2) State.reset

/-- One cycle of the word `w` placed at PC; of a fault, the frozen machine. -/
def cyc (w : Nat) (s : State) : State := machineAfter (s.withFetchWord 16 w) (step (s.withFetchWord 16 w))

/-- Some pixels turned on. -/
def lit (l : List (Nat × Nat)) (s : State) : State := s.setPix (flipAll l s.pix false).1

/-- The pixels that are on, row by row. -/
def on (s : State) : List (Nat × Nat) :=
  (List.range s.cfg.displayH).flatMap fun py =>
    ((List.range s.cfg.displayW).filter fun px => s.pixel px py).map fun px => (px, py)

/-- What a register instruction shows: Vx, VF, PC. -/
def see (x : Reg) (s : State) : Byte × Byte × Word := (s.reg x, s.reg VF, s.pc)

/-- The same machine with another call stack limit. -/
def limited (n : Nat) (stack : List Word) : State :=
  { State.resetOf { defaultConfig with stackLimit := some n } with stack := stack }

/-! ## Cycle and fetch -/

/-- T1: an unsupported word moves PC, emits its event, ticks. -/
theorem test_T1 :
    let t := cyc 0x0000 ((State.reset.setDt 5).setSt 1)
    (t.pc, t.events, t.dt, t.st, t.halt) = (0x202, [.unsupported 0x0000 0x200], 4, 0, none) := by decide +kernel

/-- T11: the last word of memory runs. -/
theorem test_T11 : see 10 (cyc 0x6A01 (State.reset.setPc 0xFFE)) = (0x01, 0, 0x1000) := by decide +kernel

/-- T12: PC = 0x1000 faults, with no tick. -/
theorem test_T12 :
    let s := (State.reset.setPc 0x1000).setDt 3
    let t := machineAfter s (step s)
    (t.halt, t.pc, t.dt) = (some ⟨.memOutOfBounds 0x1000, some 0x1000, none⟩, 0x1000, 3) := by decide +kernel

/-- T13: PC = 0xFFF faults at the low byte. -/
theorem test_T13 :
    let s := State.reset.setPc 0xFFF
    (machineAfter s (step s)).halt = some ⟨.memOutOfBounds 0x1000, some 0xFFF, none⟩ := by decide +kernel

/-- T15: an odd PC is no fault. -/
theorem test_T15 : see 10 (cyc 0x6A33 (State.reset.setPc 0x201)) = (0x33, 0, 0x203) := by decide +kernel

/-! ## Control flow -/

/-- T20. -/
theorem test_jp : (cyc 0x1ABC State.reset).pc = 0xABC := by decide +kernel

/-- T23. -/
theorem test_call :
    let t := cyc 0x2300 State.reset
    (t.stack, t.pc) = ([0x202], 0x300) := by decide +kernel

/-- T25: a full stack faults, nothing pushed. -/
theorem test_call_overflow :
    let t := cyc 0x2500 (limited 2 [0x400, 0x300])
    (t.halt, t.stack, t.pc) = (some ⟨.stackOverflow, some 0x200, some 0x2500⟩, [0x400, 0x300], 0x202) := by
  decide +kernel

/-- T27: only the top goes. -/
theorem test_ret :
    let t := cyc 0x00EE (State.reset.setStack [0x300, 0x300])
    (t.stack, t.pc) = ([0x300], 0x300) := by decide +kernel

/-- T28. -/
theorem test_ret_underflow :
    let t := cyc 0x00EE State.reset
    (t.halt, t.stack, t.pc) = (some ⟨.stackUnderflow, some 0x200, some 0x00EE⟩, [], 0x202) := by decide +kernel

/-- T29, T30. -/
theorem test_se_i : ((cyc 0x3142 (regs [(1, 0x42)])).pc, (cyc 0x3143 (regs [(1, 0x42)])).pc) = (0x204, 0x202) := by
  decide +kernel

/-- T31, T32. -/
theorem test_sne_i : ((cyc 0x4142 (regs [(1, 0x42)])).pc, (cyc 0x4143 (regs [(1, 0x42)])).pc) = (0x202, 0x204) := by
  decide +kernel

/-- T33, T34. -/
theorem test_se_r :
    ((cyc 0x5120 (regs [(1, 9), (2, 9)])).pc, (cyc 0x5120 (regs [(1, 9), (2, 8)])).pc) = (0x204, 0x202) := by
  decide +kernel

/-- T36, T37. -/
theorem test_sne_r :
    ((cyc 0x9120 (regs [(1, 9), (2, 8)])).pc, (cyc 0x9110 (regs [(1, 9), (2, 8)])).pc) = (0x204, 0x202) := by
  decide +kernel

/-- T39: the sum is not reduced. -/
theorem test_jp_v0 : (cyc 0xBFFF (regs [(0, 0xFF)])).pc = 0x10FE := by decide +kernel

/-! ## Arithmetic -/

/-- T51: VF as a plain destination. -/
theorem test_ld_i : see 15 (cyc 0x6F00 (regs [(15, 1)])) = (0, 0, 0x202) := by decide +kernel

/-- S1: wraps, no flag. -/
theorem test_add_i : see 3 (cyc 0x7302 (regs [(3, 0xFF), (15, 1)])) = (0x01, 1, 0x202) := by decide +kernel

/-- S1: VF as a plain destination. -/
theorem test_add_i_vf : see 15 (cyc 0x7FFF (regs [(15, 5)])) = (4, 4, 0x202) := by decide +kernel

/-- T53. -/
theorem test_ld_r : see 1 (cyc 0x8120 (regs [(2, 0x55)])) = (0x55, 0, 0x202) := by decide +kernel

/-- T54. -/
theorem test_or : see 1 (cyc 0x8121 (regs [(1, 0x0F), (2, 0xF0), (15, 1)])) = (0xFF, 0, 0x202) := by decide +kernel

/-- T59: the old VF is an operand. -/
theorem test_or_vf : see 1 (cyc 0x81F1 (regs [(1, 0x10), (15, 0x01)])) = (0x11, 0, 0x202) := by decide +kernel

/-- T55. -/
theorem test_and : see 1 (cyc 0x8122 (regs [(1, 0x3C), (2, 0x0F), (15, 1)])) = (0x0C, 0, 0x202) := by decide +kernel

/-- T56. -/
theorem test_xor : see 1 (cyc 0x8123 (regs [(1, 0xFF), (2, 0x0F), (15, 1)])) = (0xF0, 0, 0x202) := by decide +kernel

/-- S2. -/
theorem test_add_r : see 1 (cyc 0x8124 (regs [(1, 0xFF), (2, 0x02)])) = (0x01, 1, 0x202) := by decide +kernel

/-- T65: with x = F the carry stays. -/
theorem test_add_r_vf : see 15 (cyc 0x8F14 (regs [(15, 0xF0), (1, 0x20)])) = (1, 1, 0x202) := by decide +kernel

/-- S3. -/
theorem test_sub : see 1 (cyc 0x8125 (regs [(1, 0x05), (2, 0x0A)])) = (0xFB, 0, 0x202) := by decide +kernel

/-- T70: equal is no borrow. -/
theorem test_sub_equal : see 1 (cyc 0x8125 (regs [(1, 7), (2, 7)])) = (0, 1, 0x202) := by decide +kernel

/-- T75. -/
theorem test_subn : see 1 (cyc 0x8127 (regs [(1, 0x0A), (2, 0x05)])) = (0xFB, 0, 0x202) := by decide +kernel

/-- T77: with x = F the flag stays. -/
theorem test_subn_vf : see 15 (cyc 0x8F17 (regs [(15, 3), (1, 5)])) = (1, 1, 0x202) := by decide +kernel

/-- T78: Vy is shifted, the old Vx plays no part. -/
theorem test_shr : see 1 (cyc 0x8126 (regs [(1, 0xAA), (2, 0x05)])) = (0x02, 1, 0x202) := by decide +kernel

/-- T82: with x = F the flag is shifted. -/
theorem test_shr_vf : see 15 (cyc 0x8F26 (regs [(2, 0x03)])) = (0, 0, 0x202) := by decide +kernel

/-- T84. -/
theorem test_shl : see 1 (cyc 0x812E (regs [(2, 0x81)])) = (0x02, 1, 0x202) := by decide +kernel

/-- T88: with x = F the flag is shifted. -/
theorem test_shl_vf : see 15 (cyc 0x8F2E (regs [(2, 0x81)])) = (2, 2, 0x202) := by decide +kernel

/-- T91: whatever byte is drawn, mask 0 gives 0. -/
theorem test_rnd : ∃ t, exec (.rnd 10 0) State.reset = .next t ∧ t.reg 10 = 0 :=
  ⟨_, rfl, BitVec.and_zero⟩

/-! ## Index and memory -/

/-- T100. -/
theorem test_ld_idx : (cyc 0xA300 (State.reset.setI 0xFFFF)).i = 0x300 := by decide +kernel

/-- T101, T102: no flag; the wrap at 65536. -/
theorem test_add_idx :
    let t := cyc 0xF11E ((regs [(1, 5)]).setI 0x0FFE)
    (t.i, t.reg VF, (cyc 0xF11E ((regs [(1, 2)]).setI 0xFFFF)).i) = (0x1003, 0, 0x0001) := by decide +kernel

/-- T104, T105: no mask. -/
theorem test_ld_f : ((cyc 0xF029 (regs [(0, 0x0F)])).i, (cyc 0xF029 (regs [(0, 0xFF)])).i) = (0x009B, 0x054B) := by
  decide +kernel

/-- T106. -/
theorem test_ld_b :
    let t := cyc 0xF233 ((regs [(2, 0x9C)]).setI 0x300)
    ([0x2FF, 0x300, 0x301, 0x302, 0x303].map t.byteAt, t.i) = ([0, 1, 5, 6, 0], 0x300) := by decide +kernel

/-- T110: the bytes before the fault stay. -/
theorem test_ld_b_fault :
    let t := cyc 0xF133 ((regs [(1, 0xFF)]).setI 0xFFE)
    (t.halt, [0xFFE, 0xFFF].map t.byteAt, t.i) =
      (some ⟨.memOutOfBounds 0x1000, some 0x200, some 0xF133⟩, [2, 5], 0xFFE) := by decide +kernel

/-- T111. -/
theorem test_st_regs :
    let t := cyc 0xF355 ((regs [(0, 0x11), (1, 0x22), (2, 0x33), (3, 0x44), (4, 0x55)]).setI 0x400)
    ([0x400, 0x401, 0x402, 0x403, 0x404].map t.byteAt, t.i) = ([0x11, 0x22, 0x33, 0x44, 0], 0x404) := by
  decide +kernel

/-- T113: the bytes before the fault stay, I does not move. -/
theorem test_st_regs_fault :
    let t := cyc 0xF255 ((regs [(0, 1), (1, 2), (2, 3)]).setI 0xFFE)
    (t.halt, [0xFFE, 0xFFF].map t.byteAt, t.i) =
      (some ⟨.memOutOfBounds 0x1000, some 0x200, some 0xF255⟩, [1, 2], 0xFFE) := by decide +kernel

/-- T115: the font, and VF as data. -/
theorem test_ld_regs :
    let t := cyc 0xFF65 (State.reset.setI 0x050)
    (allRegs.map t.reg, t.i) =
      ([0xF0, 0x90, 0x90, 0x90, 0xF0, 0x20, 0x60, 0x20, 0x20, 0x70, 0xF0, 0x10, 0xF0, 0x80, 0xF0, 0xF0], 0x060) := by
  decide +kernel

/-- T116: the registers before the fault stay loaded. -/
theorem test_ld_regs_fault :
    let t := cyc 0xF265 (((regs [(0, 9), (1, 9), (2, 9)]).putBytes [0xAA, 0xBB] 0xFFE).setI 0xFFE)
    (t.halt, [0, 1, 2].map t.reg, t.i) =
      (some ⟨.memOutOfBounds 0x1000, some 0x200, some 0xF265⟩, [0xAA, 0xBB, 9], 0xFFE) := by decide +kernel

/-! ## Display -/

/-- T129: no flag, no event. -/
theorem test_cls :
    let t := cyc 0x00E0 (lit [(5, 5)] (regs [(15, 7)]))
    (on t, t.reg VF, t.events) = ([], 7, []) := by decide +kernel

/-- T120: clipped at the right and the bottom edge. -/
theorem test_drw_clips :
    let t := cyc 0xD122 (((regs [(1, 62), (2, 31)]).putBytes [0xFF, 0xFF] 0x300).setI 0x300)
    (on t, t.reg VF, t.events) = ([(62, 31), (63, 31)], 0, [.refresh]) := by decide +kernel

/-- T125: a collision. -/
theorem test_drw_collides :
    let t := cyc 0xD121 ((lit [(1, 0)] (State.reset.putBytes [0xC0] 0x300)).setI 0x300)
    (on t, t.reg VF) = ([(0, 0)], 1) := by decide +kernel

/-! ## Keys and timers -/

/-- T140, T141. -/
theorem test_skp :
    ((cyc 0xE49E ((regs [(4, 7)]).keyDown 7)).pc, (cyc 0xE49E (regs [(4, 7)])).pc) = (0x204, 0x202) := by
  decide +kernel

/-- T145. -/
theorem test_skp_fault :
    (cyc 0xE19E (regs [(1, 0x10)])).halt = some ⟨.keyIndexOutOfRange 0x10, some 0x200, some 0xE19E⟩ := by
  decide +kernel

/-- T142, T143. -/
theorem test_sknp :
    ((cyc 0xE4A1 (regs [(4, 7)])).pc, (cyc 0xE4A1 ((regs [(4, 7)]).keyDown 7)).pc) = (0x204, 0x202) := by
  decide +kernel

/-- T146. -/
theorem test_sknp_fault :
    (cyc 0xE1A1 (regs [(1, 0xFF)])).halt = some ⟨.keyIndexOutOfRange 0xFF, some 0x200, some 0xE1A1⟩ := by
  decide +kernel

/-- T153: the lowest key is latched. -/
theorem test_key_wait_latches :
    let t := cyc 0xF50A ((State.reset.keyDown 9).keyDown 4)
    (t.latch, t.pc) = (some 4, 0x200) := by decide +kernel

/-- T155: its release completes the wait, whatever else is down. -/
theorem test_key_wait_releases :
    let t := cyc 0xF50A ((State.reset.setLatch (some 4)).keyDown 9)
    (t.reg 5, t.latch, t.pc) = (4, none, 0x202) := by decide +kernel

/-- T147. -/
theorem test_ld_vx_dt :
    let t := cyc 0xF107 (State.reset.setDt 0x2A)
    (t.reg 1, t.dt) = (0x2A, 0x29) := by decide +kernel

/-- T149: set, then ticked. -/
theorem test_ld_dt_vx : (cyc 0xF015 (regs [(0, 3)])).dt = 2 := by decide +kernel

/-- T152. -/
theorem test_ld_st_vx :
    let t := cyc 0xF118 (regs [(1, 0xFF)])
    (t.st, t.dt) = (0xFE, 0) := by decide +kernel

/-! ## Host transactions -/

/-- T160: the font and its neighbours. -/
theorem test_reset_font :
    [0x04F, 0x050, 0x051, 0x052, 0x053, 0x054, 0x09B, 0x09C, 0x09D, 0x09E, 0x09F, 0x0A0].map State.reset.byteAt =
      [0, 0xF0, 0x90, 0x90, 0x90, 0xF0, 0xF0, 0x80, 0xF0, 0x80, 0x80, 0] := by decide +kernel

/-- T161. -/
theorem test_load :
    let t := transactAll [.reset, .load [0x12, 0x34]] State.reset
    ([0x200, 0x201, 0x202].map t.byteAt, t.pc) = ([0x12, 0x34, 0], 0x200) := by decide +kernel

/-- T164. -/
theorem test_key_events :
    ((State.reset.keyDown 3).isDown 3, ((State.reset.keyDown 3).keyDown 3).isDown 3,
      (((State.reset.keyDown 3).keyDown 3).keyUp 3).isDown 3) = (true, true, false) := by decide

/-- The numbers of R160. -/
theorem test_cause_codes :
    [Cause.memOutOfBounds 0x1000, .stackUnderflow, .romTooLarge 3585, .keyIndexOutOfRange 16, .stackOverflow].map
      (fun c => (c.code, c.info)) =
      [(1, some 0x1000), (2, none), (4, some 3585), (5, some 16), (6, none)] := by decide

/-! ## Witnesses: states and operands that meet the hypotheses of the statements -/

/-- The outcome is a next state, and `p` holds of it. -/
def nextWith (r : Result) (p : State → Bool) : Bool :=
  match r with
  | .next t => p t
  | .fault _ | .refused _ => false

theorem exists_next {P : State → Prop} [DecidablePred P] {r : Result}
    (h : nextWith r (fun t => decide (P t)) = true) : ∃ t, r = .next t ∧ P t := by
  cases r with
  | next t => exact ⟨t, rfl, of_decide_eq_true h⟩
  | fault _ | refused _ => cases h

/-- R13's bound, checked entry by entry. -/
theorem bounded_of_all {l : List Word} (h : l.all (fun a => decide (a.toNat ≤ 0x1000)) = true) :
    ∀ a ∈ l, a.toNat ≤ 0x1000 := fun a ha => of_decide_eq_true (List.all_eq_true.mp h a ha)

/-- The outcome is a fault of cause `c`. -/
def faultsWith (r : Result) (c : Cause) : Bool :=
  match r with
  | .fault f => f.cause = c
  | .next _ | .refused _ => false

theorem exists_fault {r : Result} {c : Cause} (h : faultsWith r c = true) : ∃ f, r = .fault f ∧ f.cause = c := by
  cases r with
  | fault f => exact ⟨f, rfl, of_decide_eq_true h⟩
  | next _ | refused _ => cases h

/-- EncodeDecodeRoundTrip; DecodeIsRowSelection, both clauses; NoWordSelectsTwoRows. -/
theorem witness_decode :
    decodeWord 0x8AB4 = .ok (.addR 10 11) ∧ ⟨"ADD_R", 0x8004, 0xF00F⟩ ∈ opcodeTable ∧
      OpcodeRow.selects ⟨"ADD_R", 0x8004, 0xF00F⟩ 0x8AB4 = true := ⟨rfl, by decide, by decide⟩

/-- StepRunsDecodedInstruction, at the last address it reaches. -/
theorem witness_step :
    let s := (State.reset.setPc 0xFFE).withFetchWord 16 0x8AB4
    s.halt = none ∧ s.pc.toNat + 1 < 4096 ∧
      decodeBytes [s.byteAt s.pc.toNat, s.byteAt (s.pc.toNat + 1)] = .ok (.addR 10 11, []) :=
  ⟨by decide +kernel, by decide +kernel, by decide +kernel⟩

/-- UnsupportedWordIsSoftNoOp. -/
theorem witness_unsupported :
    State.reset.halt = none ∧ fetch State.reset = .ok 0x0000 ∧ ∀ r ∈ opcodeTable, r.selects 0x0000 = false :=
  ⟨rfl, by decide +kernel, by decide⟩

/-- FetchReadsWordOrFaults and WordReadIsBigEndian, the three clauses where they meet; ByteStoreReadsBack, both. -/
theorem witness_addresses :
    (State.reset.setPc 0xFFE).pc.toNat = 4094 ∧ (State.reset.setPc 0xFFF).pc.toNat = 4095 ∧
      (State.reset.setPc 0x1000).pc.toNat = 4096 ∧ (State.reset.setPc 0xFFE).halt = none ∧
      Memory.wf State.reset.cfg.font State.reset.mem := by decide +kernel

/-- HaltedCycleChangesNothing (T14). -/
theorem witness_halted :
    (State.reset.haltedBy .stackUnderflow 0x00EE).halt ≠ none := by decide

/-- TimersTickOncePerCycle: a cycle that writes neither timer, one that writes DT, one that writes ST. -/
theorem witness_timers :
    (∃ t, step (State.reset.withFetchWord 16 0x6A2F) = .next t ∧ t.dt = 0) ∧
      (State.reset.withFetchWord 16 0x6A2F).nextInstr = some (.ldI 10 0x2F) ∧
      (∃ t, step (State.reset.withFetchWord 16 0xF315) = .next t ∧ t.dt = 0) ∧
      (State.reset.withFetchWord 16 0xF315).nextInstr = some (.ldDtVx 3) ∧
      (∃ t, step (State.reset.withFetchWord 16 0xF318) = .next t ∧ t.st = 0) ∧
      (State.reset.withFetchWord 16 0xF318).nextInstr = some (.ldStVx 3) :=
  ⟨exists_next (by decide +kernel), by decide +kernel, exists_next (by decide +kernel), by decide +kernel,
    exists_next (by decide +kernel), by decide +kernel⟩

/-- FaultHaltsWithRecord, both clauses; also the fault clauses of StepKeepsInv, StepKeepsPcBounded,
StepKeepsLatchWaits and StepKeepsKeysAndParameters. -/
theorem witness_step_faults :
    (∃ f, step (State.reset.withFetchWord 16 0x00EE) = .fault f ∧ f.cause = .stackUnderflow) ∧
      fetch (State.reset.withFetchWord 16 0x00EE) = .ok 0x00EE ∧
      (∃ f, step (State.reset.setPc 0x1000) = .fault f ∧ f.cause = .memOutOfBounds 0x1000) ∧
      fetch (State.reset.setPc 0x1000) = .error 0x1000 ∧
      (State.reset.withFetchWord 16 0x00EE).Inv ∧ (State.reset.withFetchWord 16 0x00EE).PcBounded ∧
      (State.reset.withFetchWord 16 0x00EE).LatchWaits :=
  ⟨exists_fault (by decide +kernel), by decide +kernel, exists_fault (by decide +kernel), by decide +kernel,
    by decide +kernel, ⟨by decide +kernel, bounded_of_all (by decide +kernel)⟩,
    fun h => absurd (by decide +kernel) h⟩

/-- FaultCausesPerInstruction: each cause an instruction can raise. -/
theorem witness_fault_causes :
    (∃ f, exec (.ldRegs 1) (State.reset.setI 0xFFF) = .fault f ∧ f.cause = .memOutOfBounds 0x1000) ∧
      (∃ f, exec .ret State.reset = .fault f ∧ f.cause = .stackUnderflow) ∧
      (∃ f, exec (.skp 1) (regs [(1, 16)]) = .fault f ∧ f.cause = .keyIndexOutOfRange 16) ∧
      (∃ f, exec (.call 0x300) (limited 1 [0x202]) = .fault f ∧ f.cause = .stackOverflow) :=
  ⟨exists_fault (by decide +kernel), exists_fault (by decide +kernel), exists_fault (by decide +kernel),
    exists_fault (by decide +kernel)⟩

/-- The next-state clauses of StepKeepsInv, StepKeepsPcBounded, StepKeepsLatchWaits (with a key latched) and
StepKeepsKeysAndParameters. -/
theorem witness_invariants :
    let s := (((State.reset.setLatch (some 4)).keyDown 4).setStack [0x1000]).withFetchWord 16 0xF50A
    s.Inv ∧ s.PcBounded ∧ s.LatchWaits ∧ s.latch ≠ none ∧ ∃ t, step s = .next t ∧ t.latch = some 4 :=
  ⟨by decide +kernel, ⟨by decide +kernel, bounded_of_all (by decide +kernel)⟩,
    fun _ => ⟨by decide +kernel, 5, by decide +kernel⟩, by decide +kernel, exists_next (by decide +kernel)⟩

/-- LegalHostRunsKeepInvariants. -/
theorem witness_legal :
    legal [.reset, .load [0xF5, 0x0A], .keyDown 4, .cycle, .keyUp 4, .cycle, .reset, .cycle] = true ∧
      State.reset.cfg.wf := by decide +kernel

/-- A load is legal only directly after a reset. -/
theorem witness_illegal :
    legal [.reset, .cycle, .load [0x12]] = false ∧ legal [.load [0x12]] = false ∧
      legal [.reset, .load [], .load []] = false := by decide

/-- EveryInstructionKeepsTheRest; VfChangesOnlyByListedInstructions. -/
theorem witness_frame :
    (∃ t, exec (.addR 1 2) (regs [(1, 0xFF), (2, 2)]) = .next t ∧ t.reg 1 = 1) ∧
      ∃ t, step ((regs [(1, 0xFF), (2, 2)]).withFetchWord 16 0x8124) = .next t ∧
        t.reg VF ≠ ((regs [(1, 0xFF), (2, 2)]).withFetchWord 16 0x8124).reg VF :=
  ⟨exists_next (by decide +kernel), exists_next (by decide +kernel)⟩

/-- SoundTimerIsNeverRead: two states that differ, in ST. -/
theorem witness_same_but_st : SameButSt State.reset (State.reset.setSt 9) ∧ State.reset.st ≠ (State.reset.setSt 9).st :=
  ⟨rfl, by decide⟩

/-- JumpToSelfOnlyTicks (S8's program). -/
theorem witness_terminated : (State.reset.withFetchWord 16 0x1200).TerminatedAt 0x200 :=
  ⟨by decide +kernel, by decide +kernel, by decide +kernel⟩

/-- CanonicalMemoriesAreEqual: the same bytes stored in two orders, one of them 0 again. -/
theorem witness_canonical :
    let s := ((State.reset.putByte 0x300 7).putByte 0x050 1).putByte 0x400 9
    let t := ((State.reset.putByte 0x400 9).putByte 0x050 1).putByte 0x300 7
    Memory.wf defaultFont s.mem ∧ Memory.wf defaultFont t.mem ∧ s.mem ≠ [] ∧ s.mem = t.mem ∧
      (s.putByte 0x050 0xF0).mem = [(0x300, 7), (0x400, 9)] := by decide +kernel

/-- StoredBytesAreFetched (T117). -/
theorem witness_stored_code :
    let s := ((regs [(0, 0x12), (1, 0x0A)]).setI 0x202).setPc 0x202
    Memory.wf s.cfg.font s.mem ∧ (∃ t, exec (.stRegs 1) s = .next t ∧ t.pc.toNat = s.effAddr 0) ∧
      (1 : Reg) ≤ 1 ∧ (1 : Reg).val = (0 : Reg).val + 1 :=
  ⟨by decide +kernel, exists_next (by decide +kernel), by decide, by decide⟩

/-- RetPopsTopOfStack, both clauses; CallPushesReturnAddress: unbounded, one below the limit, at the limit. -/
theorem witness_stack :
    (limited 2 [0x300]).stack = 0x300 :: [] ∧ State.reset.stack = [] ∧ State.reset.cfg.stackLimit = none ∧
      (limited 2 [0x300]).cfg.stackLimit = some 2 ∧ (limited 2 [0x300]).stack.length < 2 ∧
      (limited 2 [0x400, 0x300]).cfg.stackLimit = some 2 ∧ 2 ≤ (limited 2 [0x400, 0x300]).stack.length := by decide

/-- The clauses with x = F and x ≠ F of LogicClearsVf, AddWritesCarry, SubtractsWriteNotBorrow and ShiftsCopyThenShift;
RandomByteIsMasked: a bit that the mask has clear. -/
theorem witness_vf_clauses : (14 : Reg) ≠ VF ∧ (15 : Reg) = VF ∧ (0x0F : Byte).getLsbD 4 = false := by decide

/-- BcdStoresThreeDigits, RegisterBlockIsStored, RegisterBlockIsLoaded, at the last block of memory that fits. -/
theorem witness_blocks :
    Memory.wf State.reset.cfg.font State.reset.mem ∧ (State.reset.setI 0xFFD).effAddr 2 = 4095 ∧
      (State.reset.setI 0xFF0).effAddr (15 : Reg).val = 4095 := by decide +kernel

/-- BlockTransfersFaultPartway, at the first blocks that do not fit; two bytes of them do. -/
theorem witness_blocks_fault :
    Memory.wf State.reset.cfg.font State.reset.mem ∧ (State.reset.setI 0xFFE).effAddr 2 = 4096 ∧
      (State.reset.setI 0xFFE).effAddr (2 : Reg).val = 4096 ∧ (State.reset.setI 0xFFE).effAddr 1 < 4096 := by
  decide +kernel

/-- FlipPixelTogglesOnePixel and ClsClearsEveryPixel, at the last pixel. -/
theorem witness_pixel : Grid.shaped 64 32 State.reset.pix ∧ 63 < 64 ∧ 31 < 32 := by decide +kernel

/-- DrawTogglesSpriteBits: the last byte of memory as the sprite (T123) with no collision, the same with one, and the
empty sprite at an address that does not exist. -/
theorem witness_draw :
    let s := (State.reset.putByte 0xFFF 0x81).setI 0xFFF
    let t := lit [(7, 0)] s
    s.Inv ∧ (∀ k < (1 : Nibble).toNat, s.effAddr k < 4096) ∧ on s = [] ∧
      t.Inv ∧ t.pixel 7 0 = true ∧ t.spriteBit 1 2 1 7 0 = true ∧
      ∀ k < (0 : Nibble).toNat, (s.setI 0x2000).effAddr k < 4096 := by decide +kernel

/-- DrawFaultsBeforeDrawing (T124): the ninth byte does not exist. -/
theorem witness_draw_fault : 8 < (15 : Nibble).toNat ∧ 4096 ≤ (State.reset.setI 0xFF8).effAddr 8 := by decide

/-- DrawTwiceRestoresDisplay (S4), and a pixel that the first draw turns on. -/
theorem witness_draw_twice :
    let s := ((regs [(1, 10), (2, 5)]).putBytes [0xF0] 0x300).setI 0x300
    s.Inv ∧ (∃ t, exec (.drw 1 2 1) s = .next t ∧ t.spriteX 1 = s.spriteX 1 ∧ t.spriteY 2 = s.spriteY 2) ∧
      s.pixel 10 5 = false ∧ s.spriteBit 1 2 1 10 5 = true :=
  ⟨by decide +kernel, exists_next (by decide +kernel), by decide +kernel, by decide +kernel⟩

/-- KeySkipsFollowTheKey, both clauses where they meet. -/
theorem witness_key_numbers :
    ((regs [(1, 15)]).reg 1).toNat = (15 : Key).val ∧ 15 < ((regs [(1, 16)]).reg 1).toNat := by decide +kernel

/-- KeyWaitLatchesThenReleases, its clauses: no key down, key 4 the lowest down, the latched key down, and up;
WaitingCycleRepeats. -/
theorem witness_key_wait :
    let s := (State.reset.keyDown 9).keyDown 4
    State.reset.latch = none ∧ (∀ k, State.reset.isDown k = false) ∧ s.latch = none ∧ s.isDown 4 = true ∧
      (∀ j, j < 4 → s.isDown j = false) ∧ (s.setLatch (some 9)).isDown 9 = true ∧
      (s.setLatch (some 5)).isDown 5 = false ∧ s.halt = none ∧
      ((s.setLatch (some 9)).withFetchWord 16 0xF50A).nextInstr = some (.ldVxK 5) := by decide +kernel

/-- LoadPlacesImage and OversizeLoadHalts, at the largest image and one byte more (S11). -/
theorem witness_load :
    Memory.wf State.reset.cfg.font State.reset.mem ∧ (List.replicate 3584 (0xAB : Byte)).length ≤ 3584 ∧
      3584 < (List.replicate 3585 (0xAB : Byte)).length := by
  refine ⟨by decide +kernel, ?_, ?_⟩ <;> simp only [List.length_replicate] <;> decide

end Sys2Proof.Tests
end

namespace Sys2Proof.Machine

/-! ## Memory (spec/20_memory.md) -/

/-- Replacing memory leaves every register and every other part as it was. -/
theorem frame_setMem (s : State) (m : Memory) : Frame [] [.mem] s (s.setMem m) := by
  refine ⟨fun r _ => s.reg_setMem r m, fun p hp => ?_⟩
  cases p with
  | mem => exact absurd (List.mem_singleton_self Part.mem) hp
  | key => exact fun k => s.isDown_setMem k m
  | _ => exact rfl

/-- A byte stored in range keeps memory canonical. -/
theorem wf_putByte {s : State} (hm : Memory.wf s.cfg.font s.mem) {a : Nat} (ha : a < memSize) (b : Byte) :
    Memory.wf (s.putByte a b).cfg.font (s.putByte a b).mem :=
  Memory.wf_write s.cfg.font hm ha b

/-- Settles O25: in range the store is `putByte`, whose read-back, canonical form and frame each have their lemma. -/
theorem byteStoreReadsBack : Obligations.ByteStoreReadsBack := by
  intro s a b hm
  have hread := byteAt_putByte hm.1 a b
  refine ⟨fun ha => ⟨s.putByte a b, memWrite8_ok ha b, ?_, fun q hq => ?_, wf_putByte hm ha b, frame_setMem s _⟩,
    fun ha => memWrite8_error ha b⟩
  · rw [hread, if_pos rfl]
  · rw [hread, if_neg hq]

end Sys2Proof.Machine

namespace Sys2Proof

/-! ## A word is the encoding of what it decodes to (spec/30_encoding.md R62, R63, R67) -/

section Fields
variable {w : Word} {c : Nibble} (h : (catOf w).toNat = c.toNat)
include h

theorem formatNNN_of_fields : formatNNN c (nnnOf w) = w := by
  apply BitVec.eq_of_toNat_eq
  rw [catOf_toNat] at h
  rw [formatNNN_toNat, nnnOf_toNat]; omega

theorem formatXKK_of_fields : formatXKK c (xOf w) (kkOf w) = w := by
  apply BitVec.eq_of_toNat_eq
  rw [catOf_toNat] at h
  rw [formatXKK_toNat, xOf_val, kkOf_toNat]; omega

theorem formatXYN_of_fields : formatXYN c (xOf w) (yOf w) (nOf w) = w := by
  apply BitVec.eq_of_toNat_eq
  rw [catOf_toNat] at h
  rw [formatXYN_toNat, xOf_val, yOf_val, nOf_toNat]; omega

end Fields

theorem encode_of_decode0 {w : Word} {i : Instr} (h : decode0 w = some i) : encode i = w := by
  unfold decode0 at h
  iterate 2
    obtain ⟨rfl, h⟩ | ⟨-, h⟩ := ite_eq_iff.mp h
    · cases h; rfl
  cases h

theorem encode_of_decode8 {x y : Reg} {n : Nibble} {i : Instr} (h : decode8 x y n = some i) :
    encode i = formatXYN 0x8 x y n := by
  unfold decode8 at h
  split at h <;> cases h
  all_goals next hn => exact congrArg (formatXYN 0x8 x y) (BitVec.eq_of_toNat_eq hn.symm)

theorem encode_of_decodeE {x : Reg} {kk : Byte} {i : Instr} (h : decodeE x kk = some i) :
    encode i = formatXKK 0xE x kk := by
  unfold decodeE at h
  iterate 2
    obtain ⟨rfl, h⟩ | ⟨-, h⟩ := ite_eq_iff.mp h
    · cases h; rfl
  cases h

theorem encode_of_decodeF {x : Reg} {kk : Byte} {i : Instr} (h : decodeF x kk = some i) :
    encode i = formatXKK 0xF x kk := by
  unfold decodeF at h
  iterate 9
    obtain ⟨rfl, h⟩ | ⟨-, h⟩ := ite_eq_iff.mp h
    · cases h; rfl
  cases h

/-- Each category's branch builds the instruction from the very fields its format spells. -/
theorem encode_of_decode? {w : Word} {i : Instr} (h : decode? w = some i) : encode i = w := by
  unfold decode? at h
  split at h
  case h_1 => exact encode_of_decode0 h
  case h_2 hc | h_3 hc | h_11 hc | h_12 hc => cases h; exact formatNNN_of_fields hc
  case h_4 hc | h_5 hc | h_7 hc | h_8 hc | h_13 hc => cases h; exact formatXKK_of_fields hc
  case h_6 hc | h_10 hc =>
    obtain ⟨hn, hi⟩ := Option.ite_none_right_eq_some.mp h
    cases hi
    exact (congrArg (formatXYN _ _ _) hn.symm).trans (formatXYN_of_fields hc)
  case h_9 hc => exact (encode_of_decode8 h).trans (formatXYN_of_fields hc)
  case h_14 hc => cases h; exact formatXYN_of_fields hc
  case h_15 hc => exact (encode_of_decodeE h).trans (formatXKK_of_fields hc)
  case h_16 =>
    have hc : (catOf w).toNat = 15 := by have := (catOf w).isLt; grind
    exact (encode_of_decodeF h).trans (formatXKK_of_fields hc)

/-- Every instruction's encoding selects the row of R67 that bears its mnemonic. -/
theorem encodesToRow (i : Instr) : Laws.EncodesToRow.Statement i := by
  cases i with
  | cls => exact Laws.EncodesToRow.cls
  | ret => exact Laws.EncodesToRow.ret
  | jp a => exact Laws.EncodesToRow.jp a
  | call a => exact Laws.EncodesToRow.call a
  | seI x kk => exact Laws.EncodesToRow.seI x kk
  | sneI x kk => exact Laws.EncodesToRow.sneI x kk
  | seR x y => exact Laws.EncodesToRow.seR x y
  | sneR x y => exact Laws.EncodesToRow.sneR x y
  | ldI x kk => exact Laws.EncodesToRow.ldI x kk
  | addI x kk => exact Laws.EncodesToRow.addI x kk
  | ldR x y => exact Laws.EncodesToRow.ldR x y
  | orR x y => exact Laws.EncodesToRow.orR x y
  | andR x y => exact Laws.EncodesToRow.andR x y
  | xorR x y => exact Laws.EncodesToRow.xorR x y
  | addR x y => exact Laws.EncodesToRow.addR x y
  | sub x y => exact Laws.EncodesToRow.sub x y
  | shr x y => exact Laws.EncodesToRow.shr x y
  | subn x y => exact Laws.EncodesToRow.subn x y
  | shl x y => exact Laws.EncodesToRow.shl x y
  | ldIdx a => exact Laws.EncodesToRow.ldIdx a
  | jpV0 a => exact Laws.EncodesToRow.jpV0 a
  | rnd x kk => exact Laws.EncodesToRow.rnd x kk
  | drw x y n => exact Laws.EncodesToRow.drw x y n
  | skp x => exact Laws.EncodesToRow.skp x
  | sknp x => exact Laws.EncodesToRow.sknp x
  | ldVxDt x => exact Laws.EncodesToRow.ldVxDt x
  | ldDtVx x => exact Laws.EncodesToRow.ldDtVx x
  | ldStVx x => exact Laws.EncodesToRow.ldStVx x
  | ldVxK x => exact Laws.EncodesToRow.ldVxK x
  | addIdx x => exact Laws.EncodesToRow.addIdx x
  | ldF x => exact Laws.EncodesToRow.ldF x
  | ldB x => exact Laws.EncodesToRow.ldB x
  | stRegs x => exact Laws.EncodesToRow.stRegs x
  | ldRegs x => exact Laws.EncodesToRow.ldRegs x

/-! ## The bits that decide a word's mnemonic (R67's second table, by category) -/

/-- The bits that decide within category `c`: all of them in category 0, `n` in 5, 8 and 9, the low byte in E and F,
and none but the category elsewhere. -/
def decidingMask (c : Nibble) : Word :=
  match c.toNat with
  | 0x0 => 0xFFFF
  | 0x5 | 0x8 | 0x9 => 0xF00F
  | 0xE | 0xF => 0xF0FF
  | _ => 0xF000

/-- The mnemonic of the instruction that a word decodes to. -/
def mnemonic? (w : Word) : Option String := (decode? w).map Instr.mnemonic

theorem catOf_and (w m : Word) : catOf (w &&& m) = catOf w &&& catOf m := BitVec.extractLsb'_and
theorem nOf_and (w m : Word) : nOf (w &&& m) = nOf w &&& nOf m := BitVec.extractLsb'_and
theorem kkOf_and (w m : Word) : kkOf (w &&& m) = kkOf w &&& kkOf m := BitVec.extractLsb'_and

theorem catOf_decidingMask (c : Nibble) : catOf (decidingMask c) = 0xF := by
  revert c; decide

section Masked
variable {w : Word} {c : Nibble}

theorem catOf_masked : catOf (w &&& decidingMask c) = catOf w := by
  rw [catOf_and, catOf_decidingMask]
  exact BitVec.and_allOnes

theorem nOf_masked (h : nOf (decidingMask c) = 0xF) : nOf (w &&& decidingMask c) = nOf w := by
  rw [nOf_and, h]
  exact BitVec.and_allOnes

theorem kkOf_masked (h : kkOf (decidingMask c) = 0xFF) : kkOf (w &&& decidingMask c) = kkOf w := by
  rw [kkOf_and, h]
  exact BitVec.and_allOnes

end Masked

/-! Within categories 8, E and F the registers named do not matter. -/

theorem mnemonic_decode8 (x y x' y' : Reg) (n : Nibble) :
    (decode8 x y n).map Instr.mnemonic = (decode8 x' y' n).map Instr.mnemonic := by
  unfold decode8; split <;> rfl

theorem mnemonic_decodeE (x x' : Reg) (kk : Byte) :
    (decodeE x kk).map Instr.mnemonic = (decodeE x' kk).map Instr.mnemonic := by
  simp only [decodeE, apply_ite (Option.map Instr.mnemonic), Option.map_some, Instr.mnemonic]

theorem mnemonic_decodeF (x x' : Reg) (kk : Byte) :
    (decodeF x kk).map Instr.mnemonic = (decodeF x' kk).map Instr.mnemonic := by
  simp only [decodeF, apply_ite (Option.map Instr.mnemonic), Option.map_some, Instr.mnemonic]

/-- A word's mnemonic is that of its deciding bits alone, every other bit cleared. A category not named below is
one row, whose mnemonic any of its words has. -/
theorem mnemonic?_masked (w : Word) : mnemonic? (w &&& decidingMask (catOf w)) = mnemonic? w := by
  unfold mnemonic? decode?
  rw [catOf_masked]
  split
  case h_1 h =>
    have hm : decidingMask (catOf w) = BitVec.allOnes 16 := by rw [decidingMask, h]; rfl
    rw [hm, BitVec.and_allOnes]
  case h_6 h | h_10 h =>
    rw [nOf_masked (by rw [decidingMask, h]; rfl)]
    split <;> rfl
  case h_9 h =>
    rw [nOf_masked (by rw [decidingMask, h]; rfl)]
    exact mnemonic_decode8 ..
  case h_15 h =>
    rw [kkOf_masked (by rw [decidingMask, h]; rfl)]
    exact mnemonic_decodeE ..
  case h_16 =>
    have h : (catOf w).toNat = 15 := by have := (catOf w).isLt; grind
    rw [kkOf_masked (by rw [decidingMask, h]; rfl)]
    exact mnemonic_decodeF ..
  all_goals rfl

/-- Each row of R67 has the mask of its category, and its own pattern decodes to its mnemonic. -/
theorem opcodeTable_patterns : ∀ r ∈ opcodeTable,
    r.mask = decidingMask (catOf r.pattern) ∧ mnemonic? r.pattern = some r.mnemonic := by decide

theorem mnemonic?_of_selects {r : OpcodeRow} (hr : r ∈ opcodeTable) {w : Word} (hs : r.selects w = true) :
    mnemonic? w = some r.mnemonic := by
  obtain ⟨hmask, hmn⟩ := opcodeTable_patterns r hr
  have hw : w &&& decidingMask (catOf r.pattern) = r.pattern := by rw [← hmask]; exact eq_of_beq hs
  have hcat : catOf r.pattern = catOf w := by rw [← hw]; exact catOf_masked
  calc mnemonic? w
      = mnemonic? (w &&& decidingMask (catOf w)) := (mnemonic?_masked w).symm
    _ = mnemonic? r.pattern := by rw [← hcat, hw]
    _ = some r.mnemonic := hmn

theorem decodeWord_eq_ok_iff {w : Word} {i : Instr} : decodeWord w = .ok i ↔ decode? w = some i := by
  unfold decodeWord
  cases decode? w <;> simp

/-- Settles O4: what a word decodes to encodes to the word, so its row selects it; a row that selects a word agrees
with it on the bits that decide the mnemonic. -/
theorem decodeIsRowSelection : Obligations.DecodeIsRowSelection := by
  refine fun w => ⟨fun i hi => ?_, fun r hr hs => ?_⟩
  · obtain ⟨⟨r, hr, hmn, hs⟩, -⟩ := encodesToRow i
    have hw : encode i = w := encode_of_decode? (decodeWord_eq_ok_iff.mp hi)
    exact ⟨r, hr, hw ▸ hs, hmn⟩
  · obtain ⟨i, hi, hmn⟩ := Option.map_eq_some_iff.mp (mnemonic?_of_selects hr hs)
    exact ⟨i, decodeWord_eq_ok_iff.mpr hi, hmn⟩

end Sys2Proof

/-! ## The cycle of a word that decodes (spec/40_cycle.md R80 to R85) -/

namespace Sys2Proof

theorem decodeBytes_eq_ok_iff {hi lo : Byte} {bs rest : List Byte} {i : Instr} :
    decodeBytes (hi :: lo :: bs) = .ok (i, rest) ↔ decodeWord (wordOfBytes hi lo) = .ok i ∧ bs = rest := by
  cases hd : decodeWord (wordOfBytes hi lo) <;> simp [decodeBytes, hd]

end Sys2Proof

namespace Sys2Proof.Machine

/-- Where both bytes of the word exist, the fetch does not fail (R81). -/
theorem fetch_ok {s : State} (hpc : s.pc.toNat + 1 < memSize) :
    fetch s = .ok (wordOfBytes (s.byteAt s.pc.toNat) (s.byteAt (s.pc.toNat + 1))) := by
  rw [fetch_eq, if_pos hpc]

/-- The execute phase of the fetched word's instruction, with PC already advanced, then the tick. -/
theorem step_of_decodeWord {s : State} {w : Word} {i : Instr} (hhalt : s.halt = none) (hfetch : fetch s = .ok w)
    (hdec : decodeWord w = .ok i) : step s = tickAfter (exec i s.advancePc) := by
  simp only [step, hhalt, hfetch, cycleOf, hdec]

/-- Settles O7: the two bytes at PC are the word that the fetch reads, and the tick that ends its cycle acts on a next
state only. -/
theorem stepRunsDecodedInstruction : Obligations.StepRunsDecodedInstruction := by
  intro s i hhalt hpc hbytes
  obtain ⟨hdec, -⟩ := decodeBytes_eq_ok_iff.mp hbytes
  have hstep : step s = tickAfter (exec i (s.setPc (s.pc + 2))) := step_of_decodeWord hhalt (fetch_ok hpc) hdec
  rw [hstep]
  cases exec i (s.setPc (s.pc + 2)) with
  | next t => exact rfl
  | fault f => exact rfl
  | refused r => exact rfl

end Sys2Proof.Machine

/-! ## Zero-extended fields (spec/00_scope.md §5, spec/30_encoding.md R63) -/

namespace Sys2Proof

theorem zext16_toNat (b : Byte) : (zext16 b).toNat = b.toNat := BitVec.toNat_setWidth_of_le (by decide)
theorem addr16_toNat (a : Addr12) : (addr16 a).toNat = a.toNat := BitVec.toNat_setWidth_of_le (by decide)

/-- A 12-bit address plus a byte stays below 65536, so the 16-bit sum is the sum of the numbers. -/
theorem addr16_add_zext16_toNat (a : Addr12) (b : Byte) : (addr16 a + zext16 b).toNat = a.toNat + b.toNat := by
  have ha := a.isLt
  have hb := b.isLt
  rw [BitVec.toNat_add, addr16_toNat, zext16_toNat]
  omega

end Sys2Proof

/-! ## Control transfer (spec/41_control_flow.md R90 to R97) -/

namespace Sys2Proof.Machine

/-- Replacing PC leaves every register and every other part as it was. -/
theorem frame_setPc (s : State) (w : Word) : Frame [] [.pc] s (s.setPc w) := by
  refine ⟨fun r _ => s.reg_setPc r w, fun p hp => ?_⟩
  cases p with
  | pc => exact absurd (List.mem_singleton_self Part.pc) hp
  | key => exact fun k => s.isDown_setPc k w
  | mem => exact fun a => s.byteAt_setPc a w
  | _ => exact rfl

/-- Replacing STACK and PC leaves every register and every other part as it was. -/
theorem frame_setStack_setPc (s : State) (l : List Word) (w : Word) :
    Frame [] [.pc, .stack] s ((s.setStack l).setPc w) := by
  refine ⟨fun r _ => s.reg_setStack r l, fun p hp => ?_⟩
  cases p with
  | pc => exact absurd List.mem_cons_self hp
  | stack => exact absurd (List.mem_cons_of_mem _ (List.mem_singleton_self Part.stack)) hp
  | key => exact fun k => s.isDown_setStack k l
  | mem => exact fun a => s.byteAt_setStack a l
  | _ => exact rfl

theorem frame_skipIf (s : State) (c : Bool) : Frame [] [.pc] s (s.skipIf c) := by
  rw [skipIf_eq]
  exact frame_setPc s _

theorem skipIf_beq_pc (s : State) (a b : Byte) : (s.skipIf (a == b)).pc = if a = b then s.pc + 2 else s.pc := by
  simp only [skipIf_pc, beq_iff_eq]

theorem skipIf_bne_pc (s : State) (a b : Byte) : (s.skipIf (a != b)).pc = if a = b then s.pc else s.pc + 2 := by
  simp only [skipIf_pc, bne_iff_ne, ite_not]

/-- A fault of the execute phase carries the machine with the record of R168 latched. -/
theorem raiseExec_eq_haltedBy (w : Word) (c : Cause) (s : State) :
    raiseExec w c s = .fault (Fault.ofCause c (s.haltedBy c w)) := rfl

/-- An unbounded stack, or one that holds fewer entries than its limit, is not full. -/
theorem stackFull_eq_false {s : State} (h : ∀ n, s.cfg.stackLimit = some n → s.stack.length < n) :
    s.stackFull = false := by
  refine Bool.eq_false_iff.mpr fun hfull => ?_
  obtain ⟨n, hn, hle⟩ := (stackFull_iff s).mp hfull
  exact absurd hle (Nat.not_le.mpr (h n hn))

theorem exec_call_of_not_full {s : State} (h : s.stackFull = false) (nnn : Addr12) :
    exec (.call nnn) s = .next ((s.setStack (s.pc :: s.stack)).setPc (addr16 nnn)) := by
  simp [exec, execCall, push_eq, h]

theorem exec_call_of_full {s : State} (h : s.stackFull = true) (nnn : Addr12) :
    exec (.call nnn) s = .fault (.stackOverflow (s.haltedBy .stackOverflow (encode (.call nnn)))) := by
  simp [exec, execCall, push_eq, h, raiseExec_eq_haltedBy, Fault.ofCause]

/-- Settles O29: `popToPc` answers next exactly where STACK holds an element, and faults exactly where it is empty. -/
theorem retPopsTopOfStack : Obligations.RetPopsTopOfStack := by
  refine fun s => ⟨fun a rest hstack => ?_, fun hempty => ?_⟩
  · have hpop : exec .ret s = .next ((s.setStack rest).setPc a) := popToPc_eq_next.mpr ⟨a, rest, hstack, rfl⟩
    exact ⟨_, hpop, rfl, rfl, frame_setStack_setPc s rest a⟩
  · exact popToPc_eq_fault.mpr ⟨hempty, rfl⟩

/-- Settles O30: JP is one write of PC. -/
theorem jpSetsPc : Obligations.JpSetsPc :=
  fun nnn s => ⟨s.setPc (addr16 nnn), rfl, addr16_toNat nnn, frame_setPc s _⟩

/-- Settles O31: the two clauses are `stackFull` false and true. -/
theorem callPushesReturnAddress : Obligations.CallPushesReturnAddress := by
  refine fun nnn s => ⟨fun hroom => ?_, fun n hn hle => ?_⟩
  · have hcall := exec_call_of_not_full (stackFull_eq_false hroom) nnn
    exact ⟨_, hcall, rfl, addr16_toNat nnn, frame_setStack_setPc s _ _⟩
  · exact exec_call_of_full ((stackFull_iff s).mpr ⟨n, hn, hle⟩) nnn

/-- Settles O32: the sum written to PC never wraps. -/
theorem indexedJumpAddsV0 : Obligations.IndexedJumpAddsV0 :=
  fun nnn s => ⟨s.setPc (addr16 nnn + zext16 (s.reg 0)), rfl, addr16_add_zext16_toNat nnn (s.reg 0), frame_setPc s _⟩

/-- Settles O33: each of the four is `skipIf` of its own comparison. -/
theorem skipsFollowTheirCondition : Obligations.SkipsFollowTheirCondition :=
  fun x y kk s =>
    ⟨⟨s.skipIf (s.reg x == kk), rfl, skipIf_beq_pc s _ _, frame_skipIf s _⟩,
      ⟨s.skipIf (s.reg x != kk), rfl, skipIf_bne_pc s _ _, frame_skipIf s _⟩,
      ⟨s.skipIf (s.reg x == s.reg y), rfl, skipIf_beq_pc s _ _, frame_skipIf s _⟩,
      ⟨s.skipIf (s.reg x != s.reg y), rfl, skipIf_bne_pc s _ _, frame_skipIf s _⟩⟩

end Sys2Proof.Machine

/-! ## Registers and arithmetic (spec/42_alu.md R100 to R112) -/

namespace Sys2Proof.Machine

/-! ### Frames of register writes -/

theorem Keeps.trans {s t u : State} {p : Part} (hst : Keeps s t p) (htu : Keeps t u p) : Keeps s u p := by
  cases p with
  | key => exact fun k => (htu k).trans (hst k)
  | mem => exact fun a => (htu a).trans (hst a)
  | _ => exact Eq.trans htu hst

theorem Frame.trans {regs : List Reg} {parts : List Part} {s t u : State} (hst : Frame regs parts s t)
    (htu : Frame regs parts t u) : Frame regs parts s u := by
  obtain ⟨hreg, hpart⟩ := hst
  obtain ⟨hreg', hpart'⟩ := htu
  exact ⟨fun r hr => (hreg' r hr).trans (hreg r hr), fun p hp => (hpart p hp).trans (hpart' p hp)⟩

/-- A register write stays within any frame that names the register. -/
theorem frame_setReg (s : State) {x : Reg} {regs : List Reg} (hx : x ∈ regs) (b : Byte) :
    Frame regs [] s (s.setReg x b) := by
  refine ⟨fun r hr => ?_, fun p _ => ?_⟩
  · have hne : r ≠ x := fun e => hr (e ▸ hx)
    rw [State.reg_setReg, if_neg hne]
  · cases p with
    | key => exact fun k => s.isDown_setReg k x b
    | mem => exact fun a => s.byteAt_setReg a x b
    | _ => exact rfl

theorem frame_setFlag (s : State) {regs : List Reg} (hVF : VF ∈ regs) (b : Byte) : Frame regs [] s (s.setFlag b) :=
  frame_setReg s hVF b

theorem reg_setReg_self (s : State) (x : Reg) (b : Byte) : (s.setReg x b).reg x = b := by
  rw [State.reg_setReg, if_pos rfl]

/-! ### The flags as numbers (R106 to R110, R113) -/

theorem flagOf_toNat (c : Bool) : (flagOf c).toNat = c.toNat := by cases c <;> rfl

theorem carryFlag_toNat (a b : Byte) : (carryFlag a b).toNat = if 255 < a.toNat + b.toNat then 1 else 0 := by
  rw [carryFlag, flagOf_toNat, Bool.toNat, Bool.cond_decide]

theorem notBorrowFlag_toNat (minuend subtrahend : Byte) :
    (notBorrowFlag minuend subtrahend).toNat = if subtrahend.toNat ≤ minuend.toNat then 1 else 0 := by
  rw [notBorrowFlag, flagOf_toNat, Bool.toNat, Bool.cond_decide]

theorem bit0Flag_toNat (b : Byte) : (bit0Flag b).toNat = b.toNat % 2 := by
  rw [bit0Flag, flagOf_toNat, BitVec.getLsbD, Nat.toNat_testBit, Nat.pow_zero, Nat.div_one]

theorem bit7Flag_toNat (b : Byte) : (bit7Flag b).toNat = b.toNat / 128 := by
  have hb := b.isLt
  rw [bit7Flag, flagOf_toNat, BitVec.getLsbD, Nat.toNat_testBit]
  omega

/-! ### Byte arithmetic as numbers (R113) -/

theorem byte_sub_toNat (a b : Byte) : ((a - b).toNat : Int) = (a.toNat - b.toNat : Int) % 256 := by
  have hb := b.isLt
  rw [BitVec.toNat_sub]
  omega

theorem byte_shiftRight_one_toNat (b : Byte) : (b >>> 1).toNat = b.toNat / 2 := by
  rw [BitVec.toNat_ushiftRight, Nat.shiftRight_one]

theorem byte_shiftLeft_one_toNat (b : Byte) : (b <<< 1).toNat = b.toNat * 2 % 256 := by
  rw [BitVec.toNat_shiftLeft, Nat.shiftLeft_eq, Nat.pow_one]

/-! ### The two shapes of a flag-writing instruction (R112) -/

/-- Result, then flag: Vx keeps the result unless the flag is written over it, VF always keeps the flag. -/
theorem resultThenFlag_spec (x : Reg) (result flag : Byte) (s : State) :
    ∃ t, resultThenFlag x result flag s = .next t ∧ (x ≠ VF → t.reg x = result) ∧ t.reg VF = flag ∧
      Frame [x, VF] [] s t := by
  refine ⟨(s.setReg x result).setFlag flag, rfl, fun hx => ?_, reg_setReg_self _ VF flag, ?_⟩
  · rw [State.reg_setFlag, if_neg hx, reg_setReg_self]
  · exact (frame_setReg s (by simp) result).trans (frame_setFlag _ (by simp) flag)

/-- Copy, flag, shift: with x = F the last statement shifts the flag that the one before it wrote. -/
theorem copyFlagShift_spec (x y : Reg) (flag shift : Byte → Byte) (s : State) :
    ∃ t, copyFlagShift x y flag shift s = .next t ∧
      (x ≠ VF → t.reg x = shift (s.reg y) ∧ t.reg VF = flag (s.reg y)) ∧
      (x = VF → t.reg VF = shift (flag (s.reg y))) ∧ Frame [x, VF] [] s t := by
  refine ⟨_, rfl, fun hx => ⟨?_, ?_⟩, fun hx => ?_, ?_⟩
  · simp [hx]
  · simp [hx.symm]
  · simp [hx]
  · exact ((frame_setReg s (by simp) _).trans (frame_setFlag _ (by simp) _)).trans (frame_setReg _ (by simp) _)

/-! ### Loads, logic, add, subtract, shift -/

/-- Settles O34: each of the three is one register write. -/
theorem loadsAndImmediateAdd : Obligations.LoadsAndImmediateAdd := by
  intro x y kk s
  have hframe (b : Byte) : Frame [x] [] s (s.setReg x b) := frame_setReg s (List.mem_singleton_self x) b
  have hsum : ((s.setReg x (s.reg x + kk)).reg x).toNat = ((s.reg x).toNat + kk.toNat) % 256 := by
    rw [reg_setReg_self, BitVec.toNat_add]
  exact ⟨⟨_, rfl, reg_setReg_self s x kk, hframe _⟩, ⟨_, rfl, hsum, hframe _⟩,
    ⟨_, rfl, reg_setReg_self s x (s.reg y), hframe _⟩⟩

/-- OR, AND and XOR are this one write pair; `bits` is the operation bit by bit. -/
theorem resultThenFlag_bits (x : Reg) {result : Byte} {bits : Nat → Bool} (s : State)
    (hbits : ∀ k, result.getLsbD k = bits k) :
    ∃ t, resultThenFlag x result 0 s = .next t ∧ t.reg VF = 0 ∧ (x ≠ VF → ∀ k, (t.reg x).getLsbD k = bits k) ∧
      Frame [x, VF] [] s t := by
  obtain ⟨t, ht, hx, hVF, hframe⟩ := resultThenFlag_spec x result 0 s
  exact ⟨t, ht, hVF, fun hne k => by rw [hx hne, hbits], hframe⟩

/-- Settles O35: the three operations act on each bit alone, and the flag written last is 0. -/
theorem logicClearsVf : Obligations.LogicClearsVf :=
  fun x _ s => ⟨resultThenFlag_bits x s fun _ => BitVec.getLsbD_or,
    resultThenFlag_bits x s fun _ => BitVec.getLsbD_and, resultThenFlag_bits x s fun _ => BitVec.getLsbD_xor⟩

/-- Settles O36: `resultThenFlag` with the wrapped sum and the carry. -/
theorem addWritesCarry : Obligations.AddWritesCarry := by
  intro x y s
  obtain ⟨t, hadd, hx, hVF, hframe⟩ :=
    resultThenFlag_spec x (s.reg x + s.reg y) (carryFlag (s.reg x) (s.reg y)) s
  exact ⟨t, hadd, fun hne => by rw [hx hne, BitVec.toNat_add], by rw [hVF, carryFlag_toNat], hframe⟩

/-- SUB and SUBN are this one write pair, with the operands exchanged. -/
theorem resultThenFlag_difference (x : Reg) (minuend subtrahend : Byte) (s : State) :
    ∃ t, resultThenFlag x (minuend - subtrahend) (notBorrowFlag minuend subtrahend) s = .next t ∧
      (x ≠ VF → ((t.reg x).toNat : Int) = (minuend.toNat - subtrahend.toNat : Int) % 256) ∧
      (t.reg VF).toNat = (if subtrahend.toNat ≤ minuend.toNat then 1 else 0) ∧ Frame [x, VF] [] s t := by
  obtain ⟨t, ht, hx, hVF, hframe⟩ :=
    resultThenFlag_spec x (minuend - subtrahend) (notBorrowFlag minuend subtrahend) s
  exact ⟨t, ht, fun hne => by rw [hx hne, byte_sub_toNat], by rw [hVF, notBorrowFlag_toNat], hframe⟩

/-- Settles O37: the difference of Vx and Vy, and that of Vy and Vx. -/
theorem subtractsWriteNotBorrow : Obligations.SubtractsWriteNotBorrow :=
  fun x y s => ⟨resultThenFlag_difference x (s.reg x) (s.reg y) s, resultThenFlag_difference x (s.reg y) (s.reg x) s⟩

/-- Settles O38: with x = F the flag is at most 1, so its half is 0 and its double does not wrap. -/
theorem shiftsCopyThenShift : Obligations.ShiftsCopyThenShift := by
  intro x y s
  obtain ⟨t, hshr, hne, heq, hframe⟩ := copyFlagShift_spec x y bit0Flag (· >>> 1) s
  obtain ⟨u, hshl, hne', heq', hframe'⟩ := copyFlagShift_spec x y bit7Flag (· <<< 1) s
  refine ⟨⟨t, hshr, fun hx => ?_, fun hx => ?_, hframe⟩, ⟨u, hshl, fun hx => ?_, fun hx => ?_, hframe'⟩⟩
  · obtain ⟨hreg, hVF⟩ := hne hx
    exact ⟨by rw [hreg, byte_shiftRight_one_toNat], by rw [hVF, bit0Flag_toNat]⟩
  · apply BitVec.eq_of_toNat_eq
    rw [heq hx, byte_shiftRight_one_toNat, bit0Flag_toNat]
    exact Nat.div_eq_of_lt (Nat.mod_lt _ Nat.two_pos)
  · obtain ⟨hreg, hVF⟩ := hne' hx
    exact ⟨by rw [hreg, byte_shiftLeft_one_toNat], by rw [hVF, bit7Flag_toNat]⟩
  · have hbyte := (s.reg y).isLt
    rw [heq' hx, byte_shiftLeft_one_toNat, bit7Flag_toNat]
    omega

end Sys2Proof.Machine

/-! ## Index register and memory transfer (spec/43_index_memory.md R120 to R125) -/

namespace Sys2Proof.Machine

/-! ### Frames of a write of I and of a register block -/

theorem Frame.mono {regs regs' : List Reg} {parts parts' : List Part} {s t : State} (h : Frame regs parts s t)
    (hregs : regs ⊆ regs') (hparts : parts ⊆ parts') : Frame regs' parts' s t := by
  obtain ⟨hreg, hpart⟩ := h
  exact ⟨fun r hr => hreg r fun hmem => hr (hregs hmem), fun p hp => hpart p fun hmem => hp (hparts hmem)⟩

/-- Replacing I leaves every register and every other part as it was. -/
theorem frame_setI (s : State) (w : Word) : Frame [] [.i] s (s.setI w) := by
  refine ⟨fun r _ => s.reg_setI r w, fun p hp => ?_⟩
  cases p with
  | i => exact absurd (List.mem_singleton_self Part.i) hp
  | key => exact fun k => s.isDown_setI k w
  | mem => exact fun a => s.byteAt_setI a w
  | _ => exact rfl

/-- States that agree on everything but the register file keep every part. -/
theorem frame_of_eq_but_v {regs : List Reg} {s t : State} (ht : t = { s with v := t.v })
    (hreg : ∀ r, r ∉ regs → t.reg r = s.reg r) : Frame regs [] s t := by
  refine ⟨hreg, fun p _ => ?_⟩
  rw [ht]
  cases p with
  | key => exact fun _ => rfl
  | mem => exact fun _ => rfl
  | _ => exact rfl

/-! ### Blocks at I that lie in memory (R50, R51) -/

/-- Where the block I to I + x exists, the address past it is at most 4096, so `I + x + 1` does not wrap. -/
theorem iPastBlock_toNat {s : State} {x : Reg} (hfit : s.effAddr x.val < memSize) :
    (s.iPastBlock x).toNat = s.i.toNat + x.val + 1 := by
  unfold State.effAddr memSize at hfit
  rw [State.iPastBlock, BitVec.toNat_add, BitVec.toNat_ofNat]
  omega

/-- A block store at I whose addresses all exist completes: its bytes land in order and no other byte changes. -/
theorem storeBytes_of_fits (w : Word) (bs : List Byte) {s : State} (hm : s.mem.Pairwise fun c d => c.1 < d.1)
    (hfit : s.effAddr bs.length ≤ memSize) :
    ∃ m, storeBytes w bs (s.effAddr 0) s = .next (s.setMem m) ∧
      (∀ k (hk : k < bs.length), (s.setMem m).byteAt (s.effAddr k) = bs[k]) ∧
      ∀ a, (∀ k < bs.length, a ≠ s.effAddr k) → (s.setMem m).byteAt a = s.byteAt a := by
  obtain ⟨m, -, -, hread, hstore⟩ := storeBytes_spec w bs (s.effAddr 0) s hm
  have hbyte (a : Nat) : (s.setMem m).byteAt a = _ := hread a
  unfold State.effAddr at *
  refine ⟨m, hstore.trans (if_pos (.inr hfit)), fun k hk => ?_, fun a ha => ?_⟩
  · rw [hbyte, if_pos (by omega)]
    simp [hk]
  · have hout : ¬ (s.i.toNat + 0 ≤ a ∧ a < s.i.toNat + 0 + bs.length ∧ a < memSize) := by
      intro hin
      exact ha (a - s.i.toNat) (by omega) (by omega)
    rw [hbyte, if_neg hout]

/-- A load of V0 to Vx from I whose addresses all exist completes: each register gets its byte, nothing else changes. -/
theorem loadRegs_of_fits (w : Word) {x : Reg} {s : State} (hfit : s.effAddr x.val < memSize) :
    ∃ t, loadRegs w (regsUpTo x) (s.effAddr 0) s = .next t ∧
      (∀ r, r ≤ x → t.reg r = s.byteAt (s.effAddr r.val)) ∧ Frame (regsUpTo x) [] s t := by
  obtain ⟨t, ht, hother, hloaded, hload⟩ := loadRegs_spec w (regsUpTo x) (regsUpTo_nodup x) (s.effAddr 0) s
  have hend : s.effAddr 0 + (regsUpTo x).length ≤ memSize := by
    rw [regsUpTo_length]
    exact hfit
  refine ⟨t, hload.trans (if_pos (.inr hend)), fun r hr => ?_, frame_of_eq_but_v ht hother⟩
  have hlen : r.val < (regsUpTo x).length := by
    rw [regsUpTo_length]
    exact Nat.lt_succ_of_le hr
  have hin : s.effAddr 0 + r.val < memSize := by omega
  have h := hloaded r.val hlen
  rwa [regsUpTo_getElem, if_pos hin] at h

/-! ### Annn, Fx33, Fx55, Fx65 -/

/-- Settles O40: LD_IDX is one write of I. -/
theorem indexLoadSetsI : Obligations.IndexLoadSetsI :=
  fun nnn s => ⟨s.setI (addr16 nnn), rfl, addr16_toNat nnn, frame_setI s _⟩

@[simp] theorem bcdDigits_length (b : Byte) : (bcdDigits b).length = 3 := rfl

/-- A byte's quotients and remainder are themselves bytes, so no digit is cut off (R123). -/
theorem bcdDigits_toNat (b : Byte) :
    (bcdDigits b)[0].toNat = b.toNat / 100 ∧ (bcdDigits b)[1].toNat = b.toNat / 10 % 10 ∧
      (bcdDigits b)[2].toNat = b.toNat % 10 := by
  have hb := b.isLt
  refine ⟨Nat.mod_eq_of_lt ?_, Nat.mod_eq_of_lt ?_, Nat.mod_eq_of_lt ?_⟩ <;> omega

/-- Settles O42: a block store of the three digits. -/
theorem bcdStoresThreeDigits : Obligations.BcdStoresThreeDigits := by
  intro x s hm hfit
  obtain ⟨m, hstore, hbytes, hother⟩ := storeBytes_of_fits (encode (.ldB x)) (bcdDigits (s.reg x)) hm.1 hfit
  obtain ⟨hhundreds, htens, hones⟩ := bcdDigits_toNat (s.reg x)
  refine ⟨s.setMem m, hstore, ?_, ?_, ?_, hother, frame_setMem s m⟩
  · rw [hbytes 0 (by simp), hhundreds]
  · rw [hbytes 1 (by simp), htens]
  · rw [hbytes 2 (by simp), hones]

/-- Settles O43: a block store of V0 to Vx, then one write of I. -/
theorem registerBlockIsStored : Obligations.RegisterBlockIsStored := by
  intro x s hm hfit
  have hlen : ((regsUpTo x).map s.reg).length = x.val + 1 := by rw [List.length_map, regsUpTo_length]
  obtain ⟨m, hstore, hbytes, hother⟩ :=
    storeBytes_of_fits (encode (.stRegs x)) ((regsUpTo x).map s.reg) hm.1 (by rw [hlen]; exact hfit)
  refine ⟨(s.setMem m).setI (s.iPastBlock x), andThen_eq_next.mpr ⟨_, hstore, rfl⟩, fun r hr => ?_,
    fun a ha => ?_, iPastBlock_toNat hfit, ?_⟩
  · have hr' : r.val < ((regsUpTo x).map s.reg).length := by rw [hlen]; exact Nat.lt_succ_of_le hr
    rw [State.byteAt_setI, hbytes r.val hr', List.getElem_map, regsUpTo_getElem]
  · rw [State.byteAt_setI]
    exact hother a fun k hk => ha k (by omega)
  · exact ((frame_setMem s m).mono (by simp) (by simp)).trans ((frame_setI _ _).mono (by simp) (by simp))

/-- Settles O44: a block load of V0 to Vx, which keeps I, then one write of I. -/
theorem registerBlockIsLoaded : Obligations.RegisterBlockIsLoaded := by
  intro x s hfit
  obtain ⟨t, hload, hregs, hframe⟩ := loadRegs_of_fits (encode (.ldRegs x)) hfit
  have ⟨_, hparts⟩ := hframe
  have hi : t.i = s.i := hparts .i (by simp)
  refine ⟨t.setI (t.iPastBlock x), andThen_eq_next.mpr ⟨t, hload, rfl⟩, hregs, ?_, ?_⟩
  · rw [State.setI_i, State.iPastBlock, hi]
    exact iPastBlock_toNat hfit
  · exact (hframe.mono (by simp) (by simp)).trans ((frame_setI _ _).mono (by simp) (by simp))

end Sys2Proof.Machine

/-! ## Display (spec/44_display.md R131 to R133) -/

namespace Sys2Proof.Machine

/-- Replacing the pixels leaves every register and every other part as it was. -/
theorem frame_setPix (s : State) (g : Grid) : Frame [] [.pix] s (s.setPix g) := by
  refine ⟨fun r _ => s.reg_setPix r g, fun p hp => ?_⟩
  cases p with
  | pix => exact absurd (List.mem_singleton_self Part.pix) hp
  | key => exact fun k => s.isDown_setPix k g
  | mem => exact fun a => s.byteAt_setPix a g
  | _ => exact rfl

theorem pixel_clearDisplay (s : State) (px py : Nat) : s.clearDisplay.pixel px py = false :=
  blankGrid_pixel s.cfg.displayW s.cfg.displayH px py

/-- Settles O46: the grid after is one toggle of the pixel, and the answer is that pixel read back from it. -/
theorem flipPixelTogglesOnePixel : Obligations.FlipPixelTogglesOnePixel := by
  intro w h g px py hg hx hy
  have htoggle := Grid.pixel_toggle hg hx hy
  exact ⟨(htoggle px py).trans (if_pos ⟨rfl, rfl⟩), htoggle⟩

/-- Settles O47: CLS is one write of the pixels, by the blank grid. -/
theorem clsClearsEveryPixel : Obligations.ClsClearsEveryPixel :=
  fun s => ⟨s.clearDisplay, rfl, fun px py _ _ => pixel_clearDisplay s px py, frame_setPix s _⟩

end Sys2Proof.Machine

/-! ## Loading an image (spec/70_reset_and_hazards.md R182) -/

namespace Sys2Proof.Machine

/-- Bytes placed by the host replace memory and nothing else. -/
theorem putBytes_eq_setMem (bs : List Byte) (a : Nat) (s : State) :
    s.putBytes bs a = s.setMem (s.putBytes bs a).mem := by
  induction bs generalizing a s with
  | nil => rfl
  | cons b bs ih => exact ih (a + 1) (s.putByte a b)

theorem byteAt_putBytes_outside (bs : List Byte) {a q : Nat} {s : State}
    (hm : s.mem.Pairwise fun c d => c.1 < d.1) (hq : q < a ∨ a + bs.length ≤ q) :
    (s.putBytes bs a).byteAt q = s.byteAt q := by
  induction bs generalizing a s with
  | nil => rfl
  | cons b bs ih =>
    rw [List.length_cons] at hq
    have hrest := ih (a := a + 1) (s := s.putByte a b) (Memory.write_pairwise _ hm a b) (by omega)
    exact hrest.trans ((byteAt_putByte hm a b q).trans (if_neg (by omega)))

/-- The first byte lies below all that follow, which therefore leave it as it was put. -/
theorem byteAt_putBytes_inside (bs : List Byte) {a : Nat} {s : State} (hm : s.mem.Pairwise fun c d => c.1 < d.1)
    (k : Nat) (hk : k < bs.length) : (s.putBytes bs a).byteAt (a + k) = bs[k] := by
  induction bs generalizing a s k with
  | nil => exact absurd hk (Nat.not_lt_zero k)
  | cons b bs ih =>
    have hm' : (s.putByte a b).mem.Pairwise fun c d => c.1 < d.1 := Memory.write_pairwise _ hm a b
    cases k with
    | zero =>
      exact (byteAt_putBytes_outside bs hm' (.inl (by omega))).trans ((byteAt_putByte hm a b a).trans (if_pos rfl))
    | succ k =>
      have hrest := ih (a := a + 1) hm' k (Nat.lt_of_succ_lt_succ hk)
      rwa [Nat.add_right_comm] at hrest

/-- Settles O56: an image that fits is put byte by byte from 0x200, which replaces memory alone. -/
theorem loadPlacesImage : Obligations.LoadPlacesImage := by
  intro bytes s hm hlen
  obtain ⟨hrising, -⟩ := hm
  refine ⟨s.putBytes bytes progBase, if_pos hlen, byteAt_putBytes_inside bytes hrising,
    fun a ha => byteAt_putBytes_outside bytes hrising ha, ?_⟩
  rw [putBytes_eq_setMem]
  exact frame_setMem s _

end Sys2Proof.Machine

/-! ## The decoder against the encoder and the opcode map (spec/30_encoding.md R66 to R70) -/

namespace Sys2Proof

/-- Each format gives back the fields it was spelt from, and the fixed ones select the instruction's own branch. -/
theorem decode?_encode (i : Instr) : decode? (encode i) = some i := by
  cases i with
  | cls | ret => rfl
  | jp nnn | call nnn | ldIdx nnn | jpV0 nnn => simp [encode, decode?]
  | seI x kk | sneI x kk | ldI x kk | addI x kk | rnd x kk => simp [encode, decode?]
  | seR x y | sneR x y => simp [encode, decode?]
  | ldR x y | orR x y | andR x y | xorR x y | addR x y | sub x y | shr x y | subn x y | shl x y =>
    simp [encode, decode?, decode8]
  | drw x y n => simp [encode, decode?]
  | skp x | sknp x => simp [encode, decode?, decodeE]
  | ldVxDt x | ldDtVx x | ldStVx x | ldVxK x | addIdx x | ldF x | ldB x | stRegs x | ldRegs x =>
    simp [encode, decode?, decodeF]

/-- Settles O2: the two bytes spell the word of `i` again, and that word decodes to `i`. -/
theorem decodeEncodeRoundTrip : Obligations.DecodeEncodeRoundTrip := by
  intro i rest
  refine decodeBytes_eq_ok_iff.mpr ⟨?_, rfl⟩
  rw [wordOfBytes_high_low]
  exact decodeWord_eq_ok_iff.mpr (decode?_encode i)

/-- Settles O3: every branch of the decoder builds its instruction from the fields that its format spells. -/
theorem encodeDecodeRoundTrip : Obligations.EncodeDecodeRoundTrip :=
  fun _ _ h => encode_of_decode? (decodeWord_eq_ok_iff.mp h)

/-- Settles O1: the decoder computes each of the nine words. -/
theorem decodeGivesTableWords : Obligations.DecodeGivesTableWords :=
  ⟨rfl, rfl, rfl, rfl, rfl, rfl, rfl, rfl, rfl⟩

/-- Rows of R67 that agree on the bits both of them fix are the same row. -/
theorem opcodeTable_disjoint : ∀ r ∈ opcodeTable, ∀ q ∈ opcodeTable,
    r.pattern &&& q.mask = q.pattern &&& r.mask → r = q := by decide

/-- Settles O5: on the bits that both rows fix, each row's pattern is the word. -/
theorem noWordSelectsTwoRows : Obligations.NoWordSelectsTwoRows := by
  intro w r q hr hq hwr hwq
  have hwr' : w &&& r.mask = r.pattern := eq_of_beq hwr
  have hwq' : w &&& q.mask = q.pattern := eq_of_beq hwq
  refine opcodeTable_disjoint r hr q hq ?_
  rw [← hwr', ← hwq']
  ac_rfl

/-! ### The words of no row (R70) -/

theorem decode0_eq_none_iff (w : Word) : decode0 w = none ↔ w ≠ 0x00E0 ∧ w ≠ 0x00EE := by
  simp only [decode0, ite_eq_right_iff, reduceCtorEq, imp_false, ite_eq_iff, and_false, false_or]

theorem decode8_eq_none_iff (x y : Reg) (n : Nibble) :
    decode8 x y n = none ↔ n.toNat ∈ [0x8, 0x9, 0xA, 0xB, 0xC, 0xD, 0xF] := by
  have hn := n.isLt
  unfold decode8
  split
  case h_10 => simp only [List.mem_cons, List.not_mem_nil, or_false, true_iff]; grind
  all_goals next hk => simp [hk]

theorem decodeE_eq_none_iff (x : Reg) (kk : Byte) : decodeE x kk = none ↔ kk.toNat ∉ [0x9E, 0xA1] := by
  simp [decodeE, ite_eq_iff, BitVec.toNat_eq]

theorem decodeF_eq_none_iff (x : Reg) (kk : Byte) :
    decodeF x kk = none ↔ kk.toNat ∉ [0x07, 0x0A, 0x15, 0x18, 0x1E, 0x29, 0x33, 0x55, 0x65] := by
  simp [decodeF, ite_eq_iff, BitVec.toNat_eq]

theorem nOf_eq_zero_iff (w : Word) : nOf w = 0#4 ↔ w.toNat % 16 = 0 := by
  rw [← nOf_toNat, BitVec.toNat_eq]; rfl

theorem decodeWord_eq_unsupported_iff (w : Word) : decodeWord w = .error (.unsupported w) ↔ decode? w = none := by
  unfold decodeWord
  cases decode? w <;> simp

/-- Settles O6: by category, with what each category's own decoder rejects. -/
theorem rejectedWordsAreThoseListed : Obligations.RejectedWordsAreThoseListed := by
  intro w
  rw [decodeWord_eq_unsupported_iff]
  unfold decode?
  split
  case h_1 hc =>
    rw [catOf_toNat] at hc
    simp [hc, decode0_eq_none_iff]
  case h_6 hc | h_10 hc =>
    rw [catOf_toNat] at hc
    simp [hc, nOf_eq_zero_iff]
  case h_9 hc =>
    rw [catOf_toNat] at hc
    simp [hc, decode8_eq_none_iff, nOf_toNat]
  case h_15 hc =>
    rw [catOf_toNat] at hc
    simp [hc, decodeE_eq_none_iff, kkOf_toNat]
  case h_16 =>
    have hc : (catOf w).toNat = 15 := by have := (catOf w).isLt; grind
    rw [catOf_toNat] at hc
    simp [hc, decodeF_eq_none_iff, kkOf_toNat]
  all_goals
    next hc =>
      rw [catOf_toNat] at hc
      simp [hc]

end Sys2Proof

/-! ## What the execute phase can end in (spec/40_cycle.md R83, spec/60_exceptions.md R160 to R172) -/

namespace Sys2Proof.Machine

/-! ### Blocks and key numbers, whatever memory holds -/

/-- A block store changes memory only, keeps the canonical form, and ends in a next state or in the fault of the first
address that does not exist (R126). -/
theorem storeBytes_cases (w : Word) (bs : List Byte) (a : Nat) (s : State) :
    ∃ m, (Memory.wf s.cfg.font s.mem → Memory.wf s.cfg.font m) ∧
      (storeBytes w bs a s = .next (s.setMem m) ∨
        storeBytes w bs a s = raiseExec w (.memOutOfBounds (firstOutOfRange a)) (s.setMem m)) := by
  induction bs generalizing a s with
  | nil => exact ⟨s.mem, id, .inl rfl⟩
  | cons b bs ih =>
    rw [storeBytes]
    unfold firstOutOfRange at *
    rcases Nat.lt_or_ge a memSize with ha | ha
    · obtain ⟨m, hwf, hend⟩ := ih (a + 1) (s.putByte a b)
      have hfirst : max (a + 1) memSize = max a memSize := by omega
      rw [hfirst] at hend
      rw [memWrite8_ok ha]
      exact ⟨m, fun hm => hwf (wf_putByte hm ha b), hend⟩
    · rw [memWrite8_error ha, Nat.max_eq_left ha]
      exact ⟨s.mem, id, .inr rfl⟩

theorem keyOf_eq_some_iff {b : Byte} {k : Key} : keyOf b = some k ↔ b.toNat = k.val := by
  have hk := k.isLt
  unfold keyOf
  split
  · simp [Fin.ext_iff]
  · simp only [reduceCtorEq, false_iff]; omega

theorem keyOf_eq_none_iff {b : Byte} : keyOf b = none ↔ 15 < b.toNat := by
  unfold keyOf
  split <;> simp <;> omega

/-! ### The next state of each instruction that can also raise, or that branches -/

theorem exec_call_eq_next {nnn : Addr12} {s t : State} (h : exec (.call nnn) s = .next t) :
    s.stackFull = false ∧ t = (s.setStack (s.pc :: s.stack)).setPc (addr16 nnn) := by
  cases hfull : s.stackFull with
  | true => rw [exec_call_of_full hfull] at h; cases h
  | false => rw [exec_call_of_not_full hfull] at h; cases h; exact ⟨rfl, rfl⟩

theorem exec_drw_of_read {x y : Reg} {n : Nibble} {s : State} {rows : List Byte}
    (h : readBytes s n.toNat (s.effAddr 0) = .ok rows) : exec (.drw x y n) s = .next (drawSprite x y rows s) := by
  simp only [exec, execDrw, h]

theorem exec_drw_of_read_error {x y : Reg} {n : Nibble} {s : State} {a : Nat}
    (h : readBytes s n.toNat (s.effAddr 0) = .error a) :
    exec (.drw x y n) s = raiseExec (encode (.drw x y n)) (.memOutOfBounds a) s := by
  simp only [exec, execDrw, h]

theorem exec_drw_eq_next {x y : Reg} {n : Nibble} {s t : State} (h : exec (.drw x y n) s = .next t) :
    ∃ rows, t = drawSprite x y rows s := by
  cases hread : readBytes s n.toNat (s.effAddr 0) with
  | error a => cases h.symm.trans (exec_drw_of_read_error hread)
  | ok rows => cases h.symm.trans (exec_drw_of_read hread); exact ⟨rows, rfl⟩

theorem skipOnKey_of_key {s : State} {x : Reg} {k : Key} (hk : keyOf (s.reg x) = some k) (w : Word) (down : Bool) :
    skipOnKey w x down s = .next (s.skipIf (s.isDown k == down)) := by
  simp only [skipOnKey, hk]

theorem skipOnKey_of_no_key {s : State} {x : Reg} (hk : keyOf (s.reg x) = none) (w : Word) (down : Bool) :
    skipOnKey w x down s = raiseExec w (.keyIndexOutOfRange (s.reg x)) s := by
  simp only [skipOnKey, hk]

theorem skipOnKey_eq_next {w : Word} {x : Reg} {down : Bool} {s t : State} (h : skipOnKey w x down s = .next t) :
    ∃ c, t = s.skipIf c := by
  cases hk : keyOf (s.reg x) with
  | none => cases h.symm.trans (skipOnKey_of_no_key hk w down)
  | some k => cases h.symm.trans (skipOnKey_of_key hk w down); exact ⟨_, rfl⟩

theorem exec_ldVxK_of_no_latch {s : State} (hlatch : s.latch = none) (x : Reg) :
    exec (.ldVxK x) s = .next ((s.setLatch s.firstDown).setPc (s.pc - 2)) := by
  simp only [exec, execLdVxK, pollRelease_eq, hlatch]; rfl

theorem exec_ldVxK_of_held {s : State} {k : Key} (hlatch : s.latch = some k) (hk : s.isDown k = true) (x : Reg) :
    exec (.ldVxK x) s = .next (s.setPc (s.pc - 2)) := by
  simp only [exec, execLdVxK, pollRelease_eq, hlatch, hk, if_true]

theorem exec_ldVxK_of_released {s : State} {k : Key} (hlatch : s.latch = some k) (hk : s.isDown k = false) (x : Reg) :
    exec (.ldVxK x) s = .next ((s.setLatch none).setReg x (byteOfKey k)) := by
  simp only [exec, execLdVxK, pollRelease_eq, hlatch, hk]; rfl

/-- The key wait moves PC back with some key or none latched, or clears the latch and writes the released key. -/
theorem exec_ldVxK_eq_next {x : Reg} {s t : State} (h : exec (.ldVxK x) s = .next t) :
    (∃ l, t = (s.setLatch l).setPc (s.pc - 2)) ∨ ∃ k, t = (s.setLatch none).setReg x (byteOfKey k) := by
  cases hlatch : s.latch with
  | none => cases h.symm.trans (exec_ldVxK_of_no_latch hlatch x); exact .inl ⟨_, rfl⟩
  | some k =>
    cases hk : s.isDown k with
    | true => cases h.symm.trans (exec_ldVxK_of_held hlatch hk x); exact .inl ⟨s.latch, rfl⟩
    | false => cases h.symm.trans (exec_ldVxK_of_released hlatch hk x); exact .inr ⟨k, rfl⟩

theorem exec_ldB_eq_next {x : Reg} {s t : State} (h : exec (.ldB x) s = .next t) :
    ∃ m, (Memory.wf s.cfg.font s.mem → Memory.wf s.cfg.font m) ∧ t = s.setMem m := by
  obtain ⟨m, hwf, hok | hbad⟩ := storeBytes_cases (encode (.ldB x)) (bcdDigits (s.reg x)) (s.effAddr 0) s
  · exact ⟨m, hwf, by cases h.symm.trans hok; rfl⟩
  · cases h.symm.trans hbad

theorem exec_stRegs_eq_next {x : Reg} {s t : State} (h : exec (.stRegs x) s = .next t) :
    ∃ m, (Memory.wf s.cfg.font s.mem → Memory.wf s.cfg.font m) ∧ t = (s.setMem m).setI (s.iPastBlock x) := by
  obtain ⟨u, hstore, hu⟩ := andThen_eq_next.mp h
  obtain ⟨m, hwf, hok | hbad⟩ :=
    storeBytes_cases (encode (.stRegs x)) ((regsUpTo x).map s.reg) (s.effAddr 0) s
  · cases hstore.symm.trans hok; cases hu; exact ⟨m, hwf, rfl⟩
  · cases hstore.symm.trans hbad

theorem exec_ldRegs_eq_next {x : Reg} {s t : State} (h : exec (.ldRegs x) s = .next t) :
    ∃ u : State, u = { s with v := u.v } ∧ (∀ r, r ∉ regsUpTo x → u.reg r = s.reg r) ∧
      t = u.setI (s.iPastBlock x) := by
  obtain ⟨t', hload, ht⟩ := andThen_eq_next.mp h
  obtain ⟨u, hu, hother, -, heq⟩ :=
    loadRegs_spec (encode (.ldRegs x)) (regsUpTo x) (regsUpTo_nodup x) (s.effAddr 0) s
  rw [hload] at heq
  split at heq
  · cases heq; cases ht
    refine ⟨t', hu, hother, ?_⟩
    rw [hu]; rfl
  · cases heq

/-! ### The frame of a completed instruction -/

/-- An event leaves every register and every other part as it was. -/
theorem frame_emit (s : State) (e : Event) : Frame [] [.events] s (s.emit e) := by
  refine ⟨fun r _ => s.reg_emit r e, fun p hp => ?_⟩
  cases p with
  | events => exact absurd (List.mem_singleton_self Part.events) hp
  | key => exact fun k => s.isDown_emit k e
  | mem => exact fun a => s.byteAt_emit a e
  | _ => exact rfl

/-- A byte drawn leaves every register and every other part as it was. -/
theorem frame_afterDraw (s : State) : Frame [] [.draws] s s.afterDraw := by
  refine ⟨fun r _ => s.reg_setDraws r _, fun p hp => ?_⟩
  cases p with
  | draws => exact absurd (List.mem_singleton_self Part.draws) hp
  | key => exact fun k => s.isDown_setDraws k _
  | mem => exact fun a => s.byteAt_setDraws a _
  | _ => exact rfl

theorem frame_setDt (s : State) (b : Byte) : Frame [] [.dt] s (s.setDt b) := by
  refine ⟨fun r _ => s.reg_setDt r b, fun p hp => ?_⟩
  cases p with
  | dt => exact absurd (List.mem_singleton_self Part.dt) hp
  | key => exact fun k => s.isDown_setDt k b
  | mem => exact fun a => s.byteAt_setDt a b
  | _ => exact rfl

theorem frame_setSt (s : State) (b : Byte) : Frame [] [.st] s (s.setSt b) := by
  refine ⟨fun r _ => s.reg_setSt r b, fun p hp => ?_⟩
  cases p with
  | st => exact absurd (List.mem_singleton_self Part.st) hp
  | key => exact fun k => s.isDown_setSt k b
  | mem => exact fun a => s.byteAt_setSt a b
  | _ => exact rfl

theorem frame_setLatch (s : State) (l : Option Key) : Frame [] [.latch] s (s.setLatch l) := by
  refine ⟨fun r _ => s.reg_setLatch r l, fun p hp => ?_⟩
  cases p with
  | latch => exact absurd (List.mem_singleton_self Part.latch) hp
  | key => exact fun k => s.isDown_setLatch k l
  | mem => exact fun a => s.byteAt_setLatch a l
  | _ => exact rfl

/-- One update after another, each within its own part of the frame. -/
theorem Frame.append {regs regs' : List Reg} {parts parts' : List Part} {s t u : State} (hst : Frame regs parts s t)
    (htu : Frame regs' parts' t u) : Frame (regs ++ regs') (parts ++ parts') s u :=
  (hst.mono (List.subset_append_left ..) (List.subset_append_left ..)).trans
    (htu.mono (List.subset_append_right ..) (List.subset_append_right ..))

theorem frame_drawSprite (x y : Reg) (rows : List Byte) (s : State) :
    Frame [VF] [.pix, .events] s (drawSprite x y rows s) :=
  ((frame_setPix s _).append (frame_setFlag _ (List.mem_singleton_self VF) _)).append (frame_emit _ _)

theorem exec_frame {i : Instr} {s t : State} (h : exec i s = .next t) :
    Frame (regsWritten i) (partsWritten i) s t := by
  cases i with
  | cls => cases h; exact frame_setPix s _
  | ret =>
    obtain ⟨a, rest, -, rfl⟩ := popToPc_eq_next.mp h
    exact frame_setStack_setPc s rest a
  | call nnn =>
    obtain ⟨-, rfl⟩ := exec_call_eq_next h
    exact frame_setStack_setPc s _ _
  | jp nnn | jpV0 nnn => cases h; exact frame_setPc s _
  | seI x kk | sneI x kk | seR x y | sneR x y => cases h; exact frame_skipIf s _
  | skp x | sknp x =>
    obtain ⟨c, rfl⟩ := skipOnKey_eq_next h
    exact frame_skipIf s c
  | ldI x kk | addI x kk | ldR x y | ldVxDt x => cases h; exact frame_setReg s (List.mem_singleton_self x) _
  | orR x y | andR x y | xorR x y | addR x y | sub x y | subn x y =>
    obtain ⟨u, hu, -, -, hframe⟩ := resultThenFlag_spec x _ _ s
    cases h.symm.trans hu; exact hframe
  | shr x y =>
    obtain ⟨u, hu, -, -, hframe⟩ := copyFlagShift_spec x y bit0Flag (· >>> 1) s
    cases h.symm.trans hu; exact hframe
  | shl x y =>
    obtain ⟨u, hu, -, -, hframe⟩ := copyFlagShift_spec x y bit7Flag (· <<< 1) s
    cases h.symm.trans hu; exact hframe
  | rnd x kk =>
    cases h
    exact (frame_afterDraw s).append (frame_setReg _ (List.mem_singleton_self x) _)
  | drw x y n =>
    obtain ⟨rows, rfl⟩ := exec_drw_eq_next h
    exact frame_drawSprite x y rows s
  | ldDtVx x => cases h; exact frame_setDt s _
  | ldStVx x => cases h; exact frame_setSt s _
  | ldVxK x =>
    obtain ⟨l, rfl⟩ | ⟨k, rfl⟩ := exec_ldVxK_eq_next h
    · exact ((frame_setLatch s l).append (frame_setPc _ _)).mono (List.nil_subset _) (by simp [partsWritten])
    · exact ((frame_setLatch s none).append (frame_setReg _ (List.mem_singleton_self x) _)).mono
        (by simp [regsWritten]) (by simp [partsWritten])
  | ldIdx nnn | addIdx x | ldF x => cases h; exact frame_setI s _
  | ldB x =>
    obtain ⟨m, -, rfl⟩ := exec_ldB_eq_next h
    exact frame_setMem s m
  | stRegs x =>
    obtain ⟨m, -, rfl⟩ := exec_stRegs_eq_next h
    exact (frame_setMem s m).append (frame_setI _ _)
  | ldRegs x =>
    obtain ⟨u, hu, hother, rfl⟩ := exec_ldRegs_eq_next h
    exact ((frame_of_eq_but_v hu hother).append (frame_setI _ _)).mono (by simp [regsWritten]) (by simp [partsWritten])

/-- Settles O21: each instruction is one or two updates, each of which has its frame. -/
theorem everyInstructionKeepsTheRest : Obligations.EveryInstructionKeepsTheRest :=
  fun _ _ _ h => exec_frame h

/-! ### The fault of an instruction -/

/-- What R160 and R161 let the instruction `i` raise in the state `s`. -/
def RaisedBy (i : Instr) (s : State) : Cause → Prop
  | .memOutOfBounds a =>
    a = firstOutOfRange (s.effAddr 0) ∧
      ((∃ x y n, i = .drw x y n) ∨ ∃ x, i = .ldB x ∨ i = .stRegs x ∨ i = .ldRegs x)
  | .stackUnderflow => i = .ret ∧ s.stack = []
  | .romTooLarge _ => False
  | .keyIndexOutOfRange k => 15 < k.toNat ∧ ∃ x, (i = .skp x ∨ i = .sknp x) ∧ s.reg x = k
  | .stackOverflow => ∃ nnn n, i = .call nnn ∧ s.cfg.stackLimit = some n ∧ n ≤ s.stack.length

/-- `s` with other registers and another memory: all that a block transfer has changed when it raises (R126, R172). -/
def State.withData (s : State) (v : Vector Byte 16) (m : Memory) : State := { s with v := v, mem := m }

/-- The execute phase of `i` raises, and the machine it leaves is `s` but for HALT and a part of a block. -/
def Raises (i : Instr) (s : State) : Prop :=
  ∃ c v m, RaisedBy i s c ∧ (Memory.wf s.cfg.font s.mem → Memory.wf s.cfg.font m) ∧
    exec i s = raiseExec (encode i) c (s.withData v m)

/-- A fault before anything is written. -/
theorem raises_of_unchanged {i : Instr} {s : State} {c : Cause} (hc : RaisedBy i s c)
    (h : exec i s = raiseExec (encode i) c s) : Raises i s := ⟨c, s.v, s.mem, hc, id, h⟩

theorem skipOnKey_cases {i : Instr} {x : Reg} (down : Bool) (s : State) (hi : i = .skp x ∨ i = .sknp x)
    (h : exec i s = skipOnKey (encode i) x down s) : (∃ t, exec i s = .next t) ∨ Raises i s := by
  cases hk : keyOf (s.reg x) with
  | some k => exact .inl ⟨_, h.trans (skipOnKey_of_key hk _ down)⟩
  | none =>
    exact .inr (raises_of_unchanged (c := .keyIndexOutOfRange (s.reg x)) ⟨keyOf_eq_none_iff.mp hk, x, hi, rfl⟩
      (h.trans (skipOnKey_of_no_key hk _ down)))

theorem exec_stRegs_of_raise {x : Reg} {s u : State} {w : Word} {c : Cause}
    (h : storeBytes (encode (.stRegs x)) ((regsUpTo x).map s.reg) (s.effAddr 0) s = raiseExec w c u) :
    exec (.stRegs x) s = raiseExec w c u := by
  simp only [exec, execStRegs, h, andThen_raiseExec]

theorem exec_ldRegs_of_raise {x : Reg} {s u : State} {w : Word} {c : Cause}
    (h : loadRegs (encode (.ldRegs x)) (regsUpTo x) (s.effAddr 0) s = raiseExec w c u) :
    exec (.ldRegs x) s = raiseExec w c u := by
  simp only [exec, execLdRegs, h, andThen_raiseExec]

/-- Every execute phase completes or raises; none is refused. -/
theorem exec_cases (i : Instr) (s : State) : (∃ t, exec i s = .next t) ∨ Raises i s := by
  cases i with
  | ret =>
    cases hstack : s.stack with
    | nil =>
      exact .inr (raises_of_unchanged (c := .stackUnderflow) ⟨rfl, hstack⟩ (popToPc_eq_fault.mpr ⟨hstack, rfl⟩))
    | cons a rest => exact .inl ⟨_, popToPc_eq_next.mpr ⟨a, rest, hstack, rfl⟩⟩
  | call nnn =>
    cases hfull : s.stackFull with
    | false => exact .inl ⟨_, exec_call_of_not_full hfull nnn⟩
    | true =>
      obtain ⟨n, hn, hle⟩ := (stackFull_iff s).mp hfull
      exact .inr (raises_of_unchanged (c := .stackOverflow) ⟨nnn, n, rfl, hn, hle⟩ (exec_call_of_full hfull nnn))
  | drw x y n =>
    cases hread : readBytes s n.toNat (s.effAddr 0) with
    | ok rows => exact .inl ⟨_, exec_drw_of_read hread⟩
    | error a =>
      refine .inr (raises_of_unchanged (c := .memOutOfBounds a) ⟨?_, .inl ⟨x, y, n, rfl⟩⟩
        (exec_drw_of_read_error hread))
      rw [readBytes_eq] at hread
      split at hread <;> cases hread
      rfl
  | skp x => exact skipOnKey_cases true s (.inl rfl) rfl
  | sknp x => exact skipOnKey_cases false s (.inr rfl) rfl
  | ldVxK x =>
    cases hlatch : s.latch with
    | none => exact .inl ⟨_, exec_ldVxK_of_no_latch hlatch x⟩
    | some k =>
      cases hk : s.isDown k with
      | true => exact .inl ⟨_, exec_ldVxK_of_held hlatch hk x⟩
      | false => exact .inl ⟨_, exec_ldVxK_of_released hlatch hk x⟩
  | ldB x =>
    obtain ⟨m, hwf, hok | hbad⟩ := storeBytes_cases (encode (.ldB x)) (bcdDigits (s.reg x)) (s.effAddr 0) s
    · exact .inl ⟨_, hok⟩
    · exact .inr ⟨.memOutOfBounds _, s.v, m, ⟨rfl, .inr ⟨x, .inl rfl⟩⟩, hwf, hbad⟩
  | stRegs x =>
    obtain ⟨m, hwf, hok | hbad⟩ :=
      storeBytes_cases (encode (.stRegs x)) ((regsUpTo x).map s.reg) (s.effAddr 0) s
    · exact .inl ⟨_, andThen_eq_next.mpr ⟨_, hok, rfl⟩⟩
    · exact .inr ⟨.memOutOfBounds _, s.v, m, ⟨rfl, .inr ⟨x, .inr (.inl rfl)⟩⟩, hwf, exec_stRegs_of_raise hbad⟩
  | ldRegs x =>
    obtain ⟨u, hu, -, -, heq⟩ :=
      loadRegs_spec (encode (.ldRegs x)) (regsUpTo x) (regsUpTo_nodup x) (s.effAddr 0) s
    split at heq
    · exact .inl ⟨_, andThen_eq_next.mpr ⟨_, heq, rfl⟩⟩
    · refine .inr ⟨.memOutOfBounds _, u.v, s.mem, ⟨rfl, .inr ⟨x, .inr (.inr rfl)⟩⟩, id, ?_⟩
      exact (exec_ldRegs_of_raise heq).trans (congrArg (raiseExec _ _) hu)
  | _ => exact .inl ⟨_, rfl⟩

/-- A fault of the execute phase: its cause, and the machine it leaves with the record of R168 latched. -/
theorem exec_eq_fault {i : Instr} {s : State} {f : Fault} (h : exec i s = .fault f) :
    ∃ c v m, RaisedBy i s c ∧ (Memory.wf s.cfg.font s.mem → Memory.wf s.cfg.font m) ∧
      f = Fault.ofCause c ((s.withData v m).haltedBy c (encode i)) := by
  obtain ⟨t, ht⟩ | ⟨c, v, m, hc, hwf, hraise⟩ := exec_cases i s
  · cases h.symm.trans ht
  · cases h.symm.trans hraise
    exact ⟨c, v, m, hc, hwf, rfl⟩

/-- Settles O14: each instruction that can raise does so at one place of its execute phase. -/
theorem faultCausesPerInstruction : Obligations.FaultCausesPerInstruction := by
  intro i s f h
  obtain ⟨c, v, m, hc, -, rfl⟩ := exec_eq_fault h
  rw [Fault.cause_ofCause]
  exact hc

end Sys2Proof.Machine

/-! ## The cycle (spec/40_cycle.md R80 to R88) -/

namespace Sys2Proof.Machine

/-! ### The fetch, the halted machine, the tick -/

/-- Settles O26: the three ranges of the address are the two branches of `memRead16_eq`. -/
theorem wordReadIsBigEndian : Obligations.WordReadIsBigEndian := by
  intro s a
  refine ⟨fun ha => ⟨_, ?_, wordOfBytes_toNat _ _⟩, fun ha => ?_, fun ha => ?_⟩
  · rw [memRead16_eq, if_pos (by unfold memSize; omega)]
  · rw [memRead16_eq, if_neg (by unfold memSize; omega), ha]; rfl
  · rw [memRead16_eq, if_neg (by unfold memSize; omega), Nat.max_eq_left ha]

theorem step_of_fetch_error {s : State} {a : Nat} (hhalt : s.halt = none) (hfetch : fetch s = .error a) :
    step s = .fault (.memOutOfBounds a (s.setHalt (some ⟨.memOutOfBounds a, some s.pc, none⟩))) :=
  step_eq_fault.mpr ⟨hhalt, .inl ⟨a, hfetch, rfl⟩⟩

/-- Settles O9: the fetch is the 16-bit read at PC, and its error is the cycle's fault. -/
theorem fetchReadsWordOrFaults : Obligations.FetchReadsWordOrFaults := by
  intro s hhalt
  obtain ⟨hword, hlast, hpast⟩ := wordReadIsBigEndian s s.pc.toNat
  exact ⟨hword, fun hpc => step_of_fetch_error hhalt (hlast hpc), fun hpc => step_of_fetch_error hhalt (hpast hpc)⟩

/-- Settles O10: the step looks at HALT first. -/
theorem haltedCycleChangesNothing : Obligations.HaltedCycleChangesNothing :=
  fun _ hhalt => step_eq_next.mpr (.inl ⟨hhalt, rfl⟩)

theorem pc_lt_of_fetch_ok {s : State} {w : Word} (hfetch : fetch s = .ok w) : s.pc.toNat + 1 < memSize := by
  rw [fetch_eq] at hfetch
  split at hfetch
  · assumption
  · cases hfetch

/-- The fetch depends on PC and the bytes of memory alone. -/
theorem fetch_congr {s t : State} (hpc : t.pc = s.pc) (hbyte : ∀ a, t.byteAt a = s.byteAt a) : fetch t = fetch s := by
  simp only [fetch_eq, hpc, hbyte]

theorem nextInstr_congr {s t : State} (hpc : t.pc = s.pc) (hbyte : ∀ a, t.byteAt a = s.byteAt a) :
    t.nextInstr = s.nextInstr := by
  simp only [State.nextInstr, fetch_congr hpc hbyte]

theorem nextInstr_of_fetch_ok {s : State} {w : Word} (hfetch : fetch s = .ok w) : s.nextInstr = decode? w := by
  simp only [State.nextInstr, hfetch]

theorem nextInstr_of_fetch_error {s : State} {a : Nat} (hfetch : fetch s = .error a) : s.nextInstr = none := by
  simp only [State.nextInstr, hfetch]

theorem nextInstr_eq_some {s : State} {i : Instr} (h : s.nextInstr = some i) :
    ∃ w, fetch s = .ok w ∧ decode? w = some i := by
  cases hfetch : fetch s with
  | error a => rw [nextInstr_of_fetch_error hfetch] at h; cases h
  | ok w => exact ⟨w, rfl, by rwa [nextInstr_of_fetch_ok hfetch] at h⟩

theorem frame_refl (s : State) (regs : List Reg) (parts : List Part) : Frame regs parts s s := by
  refine ⟨fun _ _ => rfl, fun p _ => ?_⟩
  cases p with
  | key => exact fun _ => rfl
  | mem => exact fun _ => rfl
  | _ => exact rfl

theorem frame_tickTimers (s : State) : Frame [] [.dt, .st] s s.tickTimers :=
  (frame_setDt s _).append (frame_setSt _ _)

/-- A part that is the same need not be named in the frame. -/
theorem Frame.erase {regs : List Reg} {p : Part} {parts : List Part} {s t : State} (h : Frame regs (p :: parts) s t)
    (hp : Keeps s t p) : Frame regs parts s t := by
  obtain ⟨hreg, hpart⟩ := h
  refine ⟨hreg, fun q hq => ?_⟩
  rcases eq_or_ne q p with rfl | hne
  · exact hp
  · exact hpart q (List.not_mem_cons_of_ne_of_not_mem hne hq)

/-- PC advanced past the word and moved back by two is PC again, the sum wrapped or not. -/
theorem advancePc_pc_sub_two (s : State) : s.advancePc.pc - 2 = s.pc := BitVec.add_sub_cancel s.pc 2

theorem decode?_eq_none_of_no_row {w : Word} (h : ∀ r ∈ opcodeTable, r.selects w = false) : decode? w = none := by
  refine Option.eq_none_iff_forall_ne_some.mpr fun i hi => ?_
  obtain ⟨hrow, -⟩ := decodeIsRowSelection w
  obtain ⟨r, hr, hs, -⟩ := hrow i (decodeWord_eq_ok_iff.mpr hi)
  exact absurd hs (by simp [h r hr])

/-- Settles O8: PC advanced, the event, the tick. -/
theorem unsupportedWordIsSoftNoOp : Obligations.UnsupportedWordIsSoftNoOp := by
  intro s w hhalt hfetch hrows
  have hstep : step s = .next (s.advancePc.emit (.unsupported w s.pc)).tickTimers :=
    step_eq_next.mpr (.inr ⟨hhalt, w, hfetch, .inr ⟨decode?_eq_none_of_no_row hrows, rfl⟩⟩)
  exact ⟨_, hstep, rfl, rfl, tick_toNat _, tick_toNat _,
    ((frame_setPc s _).append (frame_emit _ _)).append (frame_tickTimers _)⟩

/-! ### A cycle that faults (R86, R167 to R169) -/

/-- Every fault of a cycle: the fetch's, with PC not advanced, or the instruction's, with its word recorded. -/
theorem step_fault_cases {s : State} {f : Fault} (h : step s = .fault f) :
    s.halt = none ∧
      ((∃ a, fetch s = .error a ∧
          f = Fault.ofCause (.memOutOfBounds a) (s.setHalt (some ⟨.memOutOfBounds a, some s.pc, none⟩))) ∨
        ∃ w i c v m, fetch s = .ok w ∧ decode? w = some i ∧ RaisedBy i s.advancePc c ∧
          (Memory.wf s.cfg.font s.mem → Memory.wf s.cfg.font m) ∧
          f = Fault.ofCause c ((s.advancePc.withData v m).setHalt (some ⟨c, some s.pc, some w⟩))) := by
  obtain ⟨hhalt, ⟨a, hfetch, hraise⟩ | ⟨w, i, hfetch, hdec, hexec⟩⟩ := step_eq_fault.mp h
  · exact ⟨hhalt, .inl ⟨a, hfetch, raise_eq_fault.mp hraise⟩⟩
  · obtain ⟨c, v, m, hc, hwf, rfl⟩ := exec_eq_fault hexec
    refine ⟨hhalt, .inr ⟨w, i, c, v, m, hfetch, hdec, hc, hwf, ?_⟩⟩
    have hat : (s.advancePc.withData v m).pc - 2 = s.pc := advancePc_pc_sub_two s
    rw [State.haltedBy, hat, encode_of_decode? hdec]

/-- Settles O12: the branches of the step, with `exec_cases` for a word that decodes. -/
theorem stepNeverRefuses : Obligations.StepNeverRefuses := by
  intro s
  cases hhalt : s.halt with
  | some r => exact .inl ⟨s, haltedCycleChangesNothing s (by simp [hhalt])⟩
  | none =>
    cases hfetch : fetch s with
    | error a => exact .inr ⟨_, step_of_fetch_error hhalt hfetch⟩
    | ok w =>
      cases hdec : decode? w with
      | none => exact .inl ⟨_, step_eq_next.mpr (.inr ⟨hhalt, w, hfetch, .inr ⟨hdec, rfl⟩⟩)⟩
      | some i =>
        obtain ⟨u, hu⟩ | ⟨c, v, m, -, -, hraise⟩ := exec_cases i s.advancePc
        · exact .inl ⟨_, step_eq_next.mpr (.inr ⟨hhalt, w, hfetch, .inl ⟨i, u, hdec, hu, rfl⟩⟩)⟩
        · exact .inr ⟨_, step_eq_fault.mpr ⟨hhalt, .inr ⟨w, i, hfetch, hdec, hraise⟩⟩⟩

/-- Settles O13: in both kinds of fault the frozen machine is written out by `step_fault_cases`. -/
theorem faultHaltsWithRecord : Obligations.FaultHaltsWithRecord := by
  intro s f h
  obtain ⟨hhalt, ⟨a, hfetch, rfl⟩ | ⟨w, i, c, v, m, hfetch, -, -, -, rfl⟩⟩ := step_fault_cases h
  · rw [Fault.frozen_ofCause, Fault.cause_ofCause]
    refine ⟨hhalt, haltedCycleChangesNothing _ nofun, rfl, rfl, rfl, fun w hw => ?_, fun a' ha' => ⟨rfl, rfl⟩⟩
    cases hfetch.symm.trans hw
  · rw [Fault.frozen_ofCause, Fault.cause_ofCause]
    refine ⟨hhalt, haltedCycleChangesNothing _ nofun, rfl, rfl, rfl, fun w' hw' => ?_, fun a ha => ?_⟩
    · cases hfetch.symm.trans hw'
      exact ⟨rfl, rfl⟩
    · cases hfetch.symm.trans ha

/-! ### What no instruction writes -/

theorem exec_cfg {i : Instr} {s t : State} (h : exec i s = .next t) : t.cfg = s.cfg := by
  obtain ⟨-, hpart⟩ := exec_frame h
  exact hpart .cfg (by cases i <;> simp [partsWritten])

theorem exec_key {i : Instr} {s t : State} (h : exec i s = .next t) : t.key = s.key := by
  obtain ⟨-, hpart⟩ := exec_frame h
  have hdown : ∀ k, t.isDown k = s.isDown k := hpart .key (by cases i <;> simp [partsWritten])
  exact Vector.ext fun k hk => hdown ⟨k, hk⟩

/-- Settles O20: neither is in any instruction's frame, and a fault writes neither. -/
theorem stepKeepsKeysAndParameters : Obligations.StepKeepsKeysAndParameters := by
  refine fun s => ⟨fun t h => ?_, fun f h => ?_⟩
  · obtain ⟨-, rfl⟩ | ⟨-, w, -, ⟨i, u, -, hexec, rfl⟩ | ⟨-, rfl⟩⟩ := step_eq_next.mp h
    · exact ⟨rfl, rfl⟩
    · have hkey := exec_key hexec
      have hcfg := exec_cfg hexec
      exact ⟨hkey, hcfg⟩
    · exact ⟨rfl, rfl⟩
  · obtain ⟨-, ⟨a, -, rfl⟩ | ⟨w, i, c, v, m, -, -, -, -, rfl⟩⟩ := step_fault_cases h
    · rw [Fault.frozen_ofCause]; exact ⟨rfl, rfl⟩
    · rw [Fault.frozen_ofCause]; exact ⟨rfl, rfl⟩

/-! ### The flag and the timers over a cycle -/

/-- The instructions that write VF: those with the flag among their results, and the seven with x = F (R187). -/
theorem writes_VF {i : Instr} (h : VF ∈ regsWritten i) :
    (∃ x y, i = .orR x y ∨ i = .andR x y ∨ i = .xorR x y ∨ i = .addR x y ∨ i = .sub x y ∨ i = .shr x y ∨
        i = .subn x y ∨ i = .shl x y) ∨
      (∃ x y n, i = .drw x y n) ∨
      (∃ kk, i = .ldI VF kk ∨ i = .addI VF kk ∨ i = .rnd VF kk) ∨
      (∃ y, i = .ldR VF y) ∨ i = .ldVxDt VF ∨ i = .ldVxK VF ∨ i = .ldRegs VF := by
  cases i with
  | orR x y | andR x y | xorR x y | addR x y | sub x y | shr x y | subn x y | shl x y => exact .inl ⟨x, y, by simp⟩
  | drw x y n => exact .inr (.inl ⟨x, y, n, rfl⟩)
  | ldI x kk | addI x kk | rnd x kk =>
    cases List.mem_singleton.mp h
    exact .inr (.inr (.inl ⟨kk, by simp⟩))
  | ldR x y => cases List.mem_singleton.mp h; exact .inr (.inr (.inr (.inl ⟨y, rfl⟩)))
  | ldVxDt x | ldVxK x => cases List.mem_singleton.mp h; simp
  | ldRegs x =>
    have hx : x = VF := le_antisymm (Fin.le_last x) (mem_regsUpTo.mp h)
    simp [hx]
  | _ => cases h

/-- Settles O22: outside an instruction's frame VF is as it was. -/
theorem vfChangesOnlyByListedInstructions : Obligations.VfChangesOnlyByListedInstructions := by
  intro s t h hVF
  obtain ⟨-, rfl⟩ | ⟨-, w, hfetch, ⟨i, u, hdec, hexec, rfl⟩ | ⟨-, rfl⟩⟩ := step_eq_next.mp h
  · exact absurd rfl hVF
  · obtain ⟨hreg, -⟩ := exec_frame hexec
    refine ⟨i, by rw [nextInstr_of_fetch_ok hfetch, hdec], writes_VF ?_⟩
    by_contra hnot
    exact hVF (hreg VF hnot)
  · exact absurd rfl hVF

theorem exec_dt {i : Instr} {s t : State} (h : exec i s = .next t) (hi : ∀ x, i ≠ .ldDtVx x) : t.dt = s.dt := by
  obtain ⟨-, hpart⟩ := exec_frame h
  refine hpart .dt ?_
  cases i with
  | ldDtVx x => exact absurd rfl (hi x)
  | _ => simp [partsWritten]

theorem exec_st {i : Instr} {s t : State} (h : exec i s = .next t) (hi : ∀ x, i ≠ .ldStVx x) : t.st = s.st := by
  obtain ⟨-, hpart⟩ := exec_frame h
  refine hpart .st ?_
  cases i with
  | ldStVx x => exact absurd rfl (hi x)
  | _ => simp [partsWritten]

/-- Settles O11: the tick follows an execute phase that writes DT in Fx15 only and ST in Fx18 only. -/
theorem timersTickOncePerCycle : Obligations.TimersTickOncePerCycle := by
  intro s t hhalt h
  obtain ⟨hne, -⟩ | ⟨-, w, hfetch, ⟨i, u, hdec, hexec, rfl⟩ | ⟨hdec, rfl⟩⟩ := step_eq_next.mp h
  · exact absurd hhalt hne
  · rw [nextInstr_of_fetch_ok hfetch, hdec, tickTimers_dt, tickTimers_st, tick_toNat, tick_toNat]
    refine ⟨fun hi => ?_, fun hi => ?_, fun x hx => ?_, fun x hx => ?_⟩
    · rw [exec_dt hexec fun x e => hi x (congrArg some e)]; rfl
    · rw [exec_st hexec fun x e => hi x (congrArg some e)]; rfl
    · cases hx; cases hexec; rfl
    · cases hx; cases hexec; rfl
  · rw [nextInstr_of_fetch_ok hfetch, hdec]
    exact ⟨fun _ => tick_toNat _, fun _ => tick_toNat _, nofun, nofun⟩

/-! ### A jump to itself (R186) -/

/-- PC goes from the jump to the jump, so all that its cycle leaves is the tick. -/
theorem step_of_terminatedAt {s : State} {nnn : Addr12} (h : s.TerminatedAt nnn) : step s = .next s.tickTimers := by
  obtain ⟨hhalt, hpc, hfetch⟩ := h
  have hback : s.advancePc.setPc (addr16 nnn) = s := by rw [← hpc]; rfl
  exact step_eq_next.mpr
    (.inr ⟨hhalt, _, hfetch, .inl ⟨.jp nnn, s, decode?_encode (.jp nnn), congrArg Host.Outcome.next hback, rfl⟩⟩)

theorem terminatedAt_tickTimers {s : State} {nnn : Addr12} (h : s.TerminatedAt nnn) :
    s.tickTimers.TerminatedAt nnn := by
  obtain ⟨hhalt, hpc, hfetch⟩ := h
  exact ⟨hhalt, hpc, hfetch⟩

theorem run_succ {s t : State} (h : step s = .next t) (k : Nat) :
    Host.Core.run core (k + 1) s = Host.Core.run core k t := by
  have hcore : core.step s = .next t := h
  simp only [Host.Core.run, hcore]

/-- Settles O24: by induction on the number of cycles, each of which is one tick. -/
theorem jumpToSelfOnlyTicks : Obligations.JumpToSelfOnlyTicks := by
  intro nnn s h k
  induction k generalizing s with
  | zero => exact ⟨s, rfl, h, rfl, rfl, frame_refl s _ _⟩
  | succ k ih =>
    obtain ⟨t, hrun, hterm, hdt, hst, hframe⟩ := ih s.tickTimers (terminatedAt_tickTimers h)
    rw [tickTimers_dt, tick_toNat] at hdt
    rw [tickTimers_st, tick_toNat] at hst
    exact ⟨t, (run_succ (step_of_terminatedAt h) k).trans hrun, hterm, by omega, by omega,
      (frame_tickTimers s).trans hframe⟩

end Sys2Proof.Machine

/-! ## The invariants (spec/10_state.md R13, R14, R18, R19, R22, R146) -/

namespace Sys2Proof.Machine

/-! ### Memory, grid and stack stay in form -/

theorem exec_keeps_wf {i : Instr} {s t : State} (h : exec i s = .next t) (hm : Memory.wf s.cfg.font s.mem) :
    Memory.wf t.cfg.font t.mem := by
  cases i with
  | ret => obtain ⟨a, rest, -, rfl⟩ := popToPc_eq_next.mp h; exact hm
  | call nnn => obtain ⟨-, rfl⟩ := exec_call_eq_next h; exact hm
  | seI x kk | sneI x kk | seR x y | sneR x y => cases h; rw [skipIf_eq]; exact hm
  | skp x | sknp x => obtain ⟨c, rfl⟩ := skipOnKey_eq_next h; rw [skipIf_eq]; exact hm
  | drw x y n => obtain ⟨rows, rfl⟩ := exec_drw_eq_next h; exact hm
  | ldVxK x => obtain ⟨l, rfl⟩ | ⟨k, rfl⟩ := exec_ldVxK_eq_next h <;> exact hm
  | ldB x => obtain ⟨m, hwf, rfl⟩ := exec_ldB_eq_next h; exact hwf hm
  | stRegs x => obtain ⟨m, hwf, rfl⟩ := exec_stRegs_eq_next h; exact hwf hm
  | ldRegs x => obtain ⟨u, hu, -, rfl⟩ := exec_ldRegs_eq_next h; rw [hu]; exact hm
  | _ => cases h; exact hm

theorem flipAll_shaped {w h : Nat} (ps : List (Nat × Nat)) {g : Grid} (hg : Grid.shaped w h g) (hit : Bool) :
    Grid.shaped w h (flipAll ps g hit).1 := by
  induction ps generalizing g hit with
  | nil => exact hg
  | cons p ps ih => exact ih (Grid.toggle_shaped hg p.1 p.2) _

theorem exec_keeps_shaped {i : Instr} {s t : State} (h : exec i s = .next t)
    (hg : Grid.shaped s.cfg.displayW s.cfg.displayH s.pix) : Grid.shaped t.cfg.displayW t.cfg.displayH t.pix := by
  cases i with
  | cls => cases h; exact blankGrid_shaped _ _
  | drw x y n => obtain ⟨rows, rfl⟩ := exec_drw_eq_next h; exact flipAll_shaped _ hg false
  | _ =>
    obtain ⟨-, hpart⟩ := exec_frame h
    have hpix : t.pix = s.pix := hpart .pix (by simp [partsWritten])
    rwa [exec_cfg h, hpix]

theorem exec_keeps_stack_within {i : Instr} {s t : State} (h : exec i s = .next t)
    (hlim : ∀ n ∈ s.cfg.stackLimit, s.stack.length ≤ n) : ∀ n ∈ t.cfg.stackLimit, t.stack.length ≤ n := by
  cases i with
  | ret =>
    obtain ⟨a, rest, hstack, rfl⟩ := popToPc_eq_next.mp h
    rw [hstack] at hlim
    exact fun n hn => Nat.le_of_succ_le (hlim n hn)
  | call nnn =>
    obtain ⟨hroom, rfl⟩ := exec_call_eq_next h
    intro n hn
    have hnot : ¬ n ≤ s.stack.length := fun hle => by
      rw [(stackFull_iff s).mpr ⟨n, hn, hle⟩] at hroom; cases hroom
    exact Nat.not_le.mp hnot
  | _ =>
    obtain ⟨-, hpart⟩ := exec_frame h
    have hstack : t.stack = s.stack := hpart .stack (by simp [partsWritten])
    rwa [exec_cfg h, hstack]

theorem exec_keeps_inv {i : Instr} {s t : State} (h : exec i s = .next t) (hs : s.Inv) : t.Inv := by
  obtain ⟨hcfg, hmem, hpix, hstack⟩ := hs
  exact ⟨exec_cfg h ▸ hcfg, exec_keeps_wf h hmem, exec_keeps_shaped h hpix, exec_keeps_stack_within h hstack⟩

/-- Settles O16: PC, HALT, the timers and the events are no part of `Inv`, so only the execute phase matters. -/
theorem stepKeepsInv : Obligations.StepKeepsInv := by
  refine fun s hs => ⟨fun t h => ?_, fun f h => ?_⟩
  · obtain ⟨-, rfl⟩ | ⟨-, w, -, ⟨i, u, -, hexec, rfl⟩ | ⟨-, rfl⟩⟩ := step_eq_next.mp h
    · exact hs
    · have hu : u.Inv := exec_keeps_inv hexec hs
      exact hu
    · exact hs
  · obtain ⟨hcfg, hmem, hpix, hstack⟩ := hs
    obtain ⟨-, ⟨a, -, rfl⟩ | ⟨w, i, c, v, m, -, -, -, hwf, rfl⟩⟩ := step_fault_cases h
    · rw [Fault.frozen_ofCause]; exact ⟨hcfg, hmem, hpix, hstack⟩
    · rw [Fault.frozen_ofCause]; exact ⟨hcfg, hwf hmem, hpix, hstack⟩

/-! ### PC and the return addresses stay bounded (R13) -/

/-- The fetch succeeded, so PC is at most 4094 and its advance does not wrap. -/
theorem advancePc_toNat {s : State} {w : Word} (hfetch : fetch s = .ok w) :
    2 ≤ s.advancePc.pc.toNat ∧ s.advancePc.pc.toNat ≤ 0x1000 := by
  have hlt := pc_lt_of_fetch_ok hfetch
  have hadd : s.advancePc.pc.toNat = (s.pc.toNat + 2) % 65536 := BitVec.toNat_add _ _
  unfold memSize at hlt
  omega

theorem skipIf_pc_bounded {s : State} (hpc : s.pc.toNat ≤ 0x1000) (c : Bool) : (s.skipIf c).pc.toNat ≤ 0x10FE := by
  rw [skipIf_pc]
  split
  · have hadd : (s.pc + 2).toNat = (s.pc.toNat + 2) % 65536 := BitVec.toNat_add _ _
    omega
  · omega

theorem skipIf_pcBounded {s : State} (hpc : s.pc.toNat ≤ 0x1000) (hstack : ∀ a ∈ s.stack, a.toNat ≤ 0x1000)
    (c : Bool) : (s.skipIf c).PcBounded := by
  refine ⟨skipIf_pc_bounded hpc c, ?_⟩
  rw [skipIf_eq]
  exact hstack

/-- In the execute phase PC is an instruction's address plus 2, so at least 2 and at most 0x1000. -/
theorem exec_keeps_pcBounded {i : Instr} {s t : State} (h : exec i s = .next t) (hlow : 2 ≤ s.pc.toNat)
    (hpc : s.pc.toNat ≤ 0x1000) (hstack : ∀ a ∈ s.stack, a.toNat ≤ 0x1000) : t.PcBounded := by
  have hkeep : s.pc.toNat ≤ 0x10FE := by omega
  cases i with
  | ret =>
    obtain ⟨a, rest, hs, rfl⟩ := popToPc_eq_next.mp h
    rw [hs] at hstack
    obtain ⟨ha, hrest⟩ := List.forall_mem_cons.mp hstack
    exact ⟨Nat.le_trans ha (by decide), hrest⟩
  | call nnn =>
    obtain ⟨-, rfl⟩ := exec_call_eq_next h
    have hnnn := nnn.isLt
    exact ⟨by rw [State.setPc_pc, addr16_toNat]; omega, List.forall_mem_cons.mpr ⟨hpc, hstack⟩⟩
  | jp nnn =>
    cases h
    have hnnn := nnn.isLt
    exact ⟨by rw [State.setPc_pc, addr16_toNat]; omega, hstack⟩
  | jpV0 nnn =>
    cases h
    have hnnn := nnn.isLt
    have hv0 := (s.reg 0).isLt
    exact ⟨by rw [State.setPc_pc, addr16_add_zext16_toNat]; omega, hstack⟩
  | seI x kk | sneI x kk | seR x y | sneR x y => cases h; exact skipIf_pcBounded hpc hstack _
  | skp x | sknp x => obtain ⟨c, rfl⟩ := skipOnKey_eq_next h; exact skipIf_pcBounded hpc hstack c
  | ldVxK x =>
    obtain ⟨l, rfl⟩ | ⟨k, rfl⟩ := exec_ldVxK_eq_next h
    · have hsub : (s.pc - 2).toNat = s.pc.toNat - 2 := BitVec.toNat_sub_of_le hlow
      exact ⟨by rw [State.setPc_pc, hsub]; omega, hstack⟩
    · exact ⟨hkeep, hstack⟩
  | _ =>
    obtain ⟨-, hpart⟩ := exec_frame h
    have hpc' : t.pc = s.pc := hpart .pc (by simp [partsWritten])
    have hstack' : t.stack = s.stack := hpart .stack (by simp [partsWritten])
    rw [State.PcBounded, hpc', hstack']
    exact ⟨hkeep, hstack⟩

/-- Settles O17: a fetched word advances PC to 0x1000 at most, from where no instruction passes 0x10FE. -/
theorem stepKeepsPcBounded : Obligations.StepKeepsPcBounded := by
  refine fun s hs => ⟨fun t h => ?_, fun f h => ?_⟩
  · have ⟨hpc, hstack⟩ := hs
    obtain ⟨-, rfl⟩ | ⟨-, w, hfetch, ⟨i, u, -, hexec, rfl⟩ | ⟨-, rfl⟩⟩ := step_eq_next.mp h
    · exact hs
    · obtain ⟨hlow, hadv⟩ := advancePc_toNat hfetch
      have hu : u.PcBounded := exec_keeps_pcBounded hexec hlow hadv hstack
      exact hu
    · obtain ⟨-, hadv⟩ := advancePc_toNat hfetch
      exact ⟨Nat.le_trans hadv (by decide), hstack⟩
  · obtain ⟨hpc, hstack⟩ := hs
    obtain ⟨-, ⟨a, -, rfl⟩ | ⟨w, i, c, v, m, hfetch, -, -, -, rfl⟩⟩ := step_fault_cases h
    · rw [Fault.frozen_ofCause]; exact ⟨hpc, hstack⟩
    · rw [Fault.frozen_ofCause]
      obtain ⟨-, hadv⟩ := advancePc_toNat hfetch
      exact ⟨Nat.le_trans hadv (by decide), hstack⟩

/-! ### A key is latched only on the waiting instruction (R22, R146) -/

theorem latchWaits_of_none {s : State} (h : s.latch = none) : s.LatchWaits := fun hne => absurd h hne

/-- Where the next instruction is not Fx0A, nothing is latched. -/
theorem latch_eq_none {s : State} (hs : s.LatchWaits) (hi : ∀ x, s.nextInstr ≠ some (.ldVxK x)) : s.latch = none := by
  by_contra hne
  obtain ⟨-, x, hx⟩ := hs hne
  exact hi x hx

theorem exec_latch {i : Instr} {s t : State} (h : exec i s = .next t) (hi : ∀ x, i ≠ .ldVxK x) : t.latch = s.latch := by
  obtain ⟨-, hpart⟩ := exec_frame h
  refine hpart .latch ?_
  cases i with
  | ldVxK x => exact absurd rfl (hi x)
  | _ => simp [partsWritten]

/-- After Fx0A either the machine is on the same word again or nothing is latched. -/
theorem exec_ldVxK_latchWaits {s u : State} {x : Reg} (hhalt : s.halt = none)
    (hnext : s.nextInstr = some (.ldVxK x)) (h : exec (.ldVxK x) s.advancePc = .next u) : u.tickTimers.LatchWaits := by
  obtain ⟨l, rfl⟩ | ⟨k, rfl⟩ := exec_ldVxK_eq_next h
  · refine fun _ => ⟨hhalt, x, ?_⟩
    rw [← hnext]
    exact nextInstr_congr (advancePc_pc_sub_two s) fun _ => rfl
  · exact latchWaits_of_none rfl

/-- Fx0A never raises, so an instruction that does was reached with nothing latched. -/
theorem not_raisedBy_ldVxK {x : Reg} {s : State} {c : Cause} : ¬ RaisedBy (.ldVxK x) s c := by
  cases c <;> simp [RaisedBy]

/-- Settles O18: only Fx0A touches LATCH, and with a key latched the instruction is Fx0A. -/
theorem stepKeepsLatchWaits : Obligations.StepKeepsLatchWaits := by
  refine fun s hs => ⟨fun t h => ?_, fun f h => ?_⟩
  · obtain ⟨-, rfl⟩ | ⟨hhalt, w, hfetch, ⟨i, u, hdec, hexec, rfl⟩ | ⟨hdec, rfl⟩⟩ := step_eq_next.mp h
    · exact hs
    · have hnext : s.nextInstr = some i := by rw [nextInstr_of_fetch_ok hfetch, hdec]
      by_cases hi : ∃ x, i = .ldVxK x
      · obtain ⟨x, rfl⟩ := hi
        exact exec_ldVxK_latchWaits hhalt hnext hexec
      · have hi' : ∀ x, i ≠ .ldVxK x := fun x e => hi ⟨x, e⟩
        have hnone : s.latch = none :=
          latch_eq_none hs fun x hx => hi' x (Option.some.inj (hnext.symm.trans hx))
        exact latchWaits_of_none ((exec_latch hexec hi').trans hnone)
    · have hnone : s.latch = none :=
        latch_eq_none hs fun x hx => by rw [nextInstr_of_fetch_ok hfetch, hdec] at hx; cases hx
      exact latchWaits_of_none hnone
  · obtain ⟨-, ⟨a, hfetch, rfl⟩ | ⟨w, i, c, v, m, hfetch, hdec, hc, -, rfl⟩⟩ := step_fault_cases h
    · rw [Fault.frozen_ofCause]
      have hnone : s.latch = none :=
        latch_eq_none hs fun x hx => by rw [nextInstr_of_fetch_error hfetch] at hx; cases hx
      exact latchWaits_of_none hnone
    · rw [Fault.frozen_ofCause]
      have hnone : s.latch = none := by
        refine latch_eq_none hs fun x hx => not_raisedBy_ldVxK (x := x) (s := s.advancePc) (c := c) ?_
        rw [nextInstr_of_fetch_ok hfetch, hdec] at hx
        cases hx
        exact hc
      exact latchWaits_of_none hnone

/-! ### Reset, and every legal sequence of transactions (R174, R180, R184) -/

/-- The three invariants together. -/
def State.Sound (s : State) : Prop := s.Inv ∧ s.PcBounded ∧ s.LatchWaits

theorem sound_hostReset {s : State} (hcfg : s.cfg.wf) : s.hostReset.Sound := by
  have hpc : s.hostReset.pc.toNat ≤ 0x10FE := Nat.le_of_ble_eq_true rfl
  exact ⟨⟨hcfg, ⟨List.Pairwise.nil, List.forall_mem_nil _⟩, blankGrid_shaped _ _, fun n _ => Nat.zero_le n⟩,
    ⟨hpc, List.forall_mem_nil _⟩, latchWaits_of_none rfl⟩

/-- Settles O15: the reset state is the default machine put through a reset. -/
theorem resetMeetsInvariants : Obligations.ResetMeetsInvariants :=
  sound_hostReset (s := State.reset) (by decide)

/-- An image that lies below 4096 keeps memory canonical. -/
theorem wf_putBytes (bs : List Byte) {a : Nat} {s : State} (hm : Memory.wf s.cfg.font s.mem)
    (hfit : a + bs.length ≤ memSize) : Memory.wf s.cfg.font (s.putBytes bs a).mem := by
  induction bs generalizing a s with
  | nil => exact hm
  | cons b bs ih =>
    rw [List.length_cons] at hfit
    exact ih (a := a + 1) (s := s.putByte a b) (wf_putByte hm (by omega) b) (by omega)

/-- A load comes with nothing latched, so it may write over the word at PC. -/
theorem sound_load {s : State} (hs : s.Sound) (hlatch : s.latch = none) (bytes : List Byte) :
    (machineAfter s (transact (.load bytes) s)).Sound := by
  obtain ⟨⟨hcfg, hmem, hpix, hlim⟩, ⟨hpc, hstack⟩, -⟩ := hs
  rcases Nat.lt_or_ge romMax bytes.length with hlen | hlen
  · have hload : transact (.load bytes) s = raise (.romTooLarge bytes.length) none none s :=
      if_neg (Nat.not_le.mpr hlen)
    rw [hload]
    exact ⟨⟨hcfg, hmem, hpix, hlim⟩, ⟨hpc, hstack⟩, latchWaits_of_none hlatch⟩
  · have hload : transact (.load bytes) s = .next (s.setMem (s.putBytes bytes progBase).mem) := by
      rw [← putBytes_eq_setMem]
      exact if_pos hlen
    have hfit : progBase + bytes.length ≤ memSize := Nat.add_le_add_left hlen progBase
    rw [hload]
    exact ⟨⟨hcfg, wf_putBytes bytes hmem hfit, hpix, hlim⟩, ⟨hpc, hstack⟩, latchWaits_of_none hlatch⟩

/-- No invariant speaks of the keys. -/
theorem sound_setKey {s : State} (hs : s.Sound) (k : Key) (b : Bool) : (s.setKey k b).Sound := hs

theorem sound_cycle {s : State} (hs : s.Sound) : (machineAfter s (step s)).Sound := by
  obtain ⟨hinv, hpc, hlatch⟩ := hs
  obtain ⟨inv_next, inv_fault⟩ := stepKeepsInv s hinv
  obtain ⟨pc_next, pc_fault⟩ := stepKeepsPcBounded s hpc
  obtain ⟨latch_next, latch_fault⟩ := stepKeepsLatchWaits s hlatch
  cases h : step s with
  | next t => exact ⟨inv_next t h, pc_next t h, latch_next t h⟩
  | fault f => exact ⟨inv_fault f h, pc_fault f h, latch_fault f h⟩
  | refused r => exact ⟨hinv, hpc, hlatch⟩

/-- From a sound machine, with nothing latched where a load may follow. -/
theorem sound_transactAll {mayLoad : Bool} {ts : List Transaction} (hlegal : legalAfter mayLoad ts = true) {s : State}
    (hs : s.Sound) (hlatch : mayLoad = true → s.latch = none) : (transactAll ts s).Sound := by
  induction ts generalizing mayLoad s with
  | nil => exact hs
  | cons t ts ih =>
    cases t with
    | reset =>
      obtain ⟨⟨hcfg, -⟩, -⟩ := hs
      exact ih hlegal (sound_hostReset hcfg) fun _ => rfl
    | load bytes =>
      obtain ⟨hmay, hrest⟩ := Bool.and_eq_true_iff.mp hlegal
      exact ih hrest (sound_load hs (hlatch hmay) bytes) nofun
    | keyDown k => exact ih hlegal (sound_setKey hs k true) nofun
    | keyUp k => exact ih hlegal (sound_setKey hs k false) nofun
    | cycle => exact ih hlegal (sound_cycle hs) nofun

/-- Settles O19: the reset that comes first makes the machine sound, and every transaction after it keeps it so. -/
theorem legalHostRunsKeepInvariants : Obligations.LegalHostRunsKeepInvariants := by
  intro ts s hlegal hcfg
  cases ts with
  | nil => cases hlegal
  | cons t ts =>
    cases t with
    | reset => exact sound_transactAll (mayLoad := true) hlegal (sound_hostReset hcfg) fun _ => rfl
    | _ => cases hlegal

end Sys2Proof.Machine

/-! ## Nothing reads ST (spec/10_state.md R15, spec/45_keypad_timers.md R151) -/

namespace Sys2Proof.Machine

/-- The outcome with another value of ST in the machine it leaves. -/
def replaceSt (b : Byte) : Result → Result
  | .next s => .next (s.setSt b)
  | .fault f => .fault (Fault.ofCause f.cause (f.frozen.setSt b))
  | .refused e => .refused e

@[simp] theorem replaceSt_next (b : Byte) (s : State) : replaceSt b (.next s) = .next (s.setSt b) := rfl

@[simp] theorem replaceSt_raiseExec (b : Byte) (w : Word) (c : Cause) (s : State) :
    replaceSt b (raiseExec w c s) = raiseExec w c (s.setSt b) := by
  cases c <;> rfl

/-- A second replacement takes the first one's place. -/
theorem replaceSt_replaceSt (a b : Byte) (r : Result) : replaceSt a (replaceSt b r) = replaceSt a r := by
  cases r with
  | next s => rfl
  | fault f => simp only [replaceSt, Fault.cause_ofCause, Fault.frozen_ofCause]; rfl
  | refused e => rfl

theorem andThen_replaceSt {f : State → Result} {b : Byte} (hf : ∀ t : State, f (t.setSt b) = replaceSt b (f t))
    (r : Result) : andThen (replaceSt b r) f = replaceSt b (andThen r f) := by
  cases r with
  | next s => exact hf s
  | fault e => rfl
  | refused e => rfl

theorem sameOutcomeButSt_of_replaceSt {r q : Result} (h : replaceSt 0 r = replaceSt 0 q) : SameOutcomeButSt r q := by
  cases r <;> cases q
  case next.next s t => exact Host.Outcome.next.inj h
  case fault.fault f g =>
    have hfault := Host.Outcome.fault.inj h
    have hcause := congrArg Fault.cause hfault
    have hfrozen := congrArg Fault.frozen hfault
    simp only [Fault.cause_ofCause, Fault.frozen_ofCause] at hcause hfrozen
    exact ⟨hcause, hfrozen⟩
  case refused.refused e e' => exact Host.Outcome.refused.inj h
  all_goals cases h

theorem storeBytes_setSt (w : Word) (bs : List Byte) (a : Nat) (s : State) (b : Byte) :
    storeBytes w bs a (s.setSt b) = replaceSt b (storeBytes w bs a s) := by
  induction bs generalizing a s with
  | nil => rfl
  | cons c bs ih =>
    rcases Nat.lt_or_ge a memSize with ha | ha
    · simp only [storeBytes, memWrite8_ok ha]
      exact ih (a + 1) (s.putByte a c)
    · simp only [storeBytes, memWrite8_error ha, replaceSt_raiseExec]

theorem loadRegs_setSt (w : Word) (rs : List Reg) (a : Nat) (s : State) (b : Byte) :
    loadRegs w rs a (s.setSt b) = replaceSt b (loadRegs w rs a s) := by
  induction rs generalizing a s with
  | nil => rfl
  | cons r rs ih =>
    rcases Nat.lt_or_ge a memSize with ha | ha
    · simp only [loadRegs, memRead8_ok ha]
      exact ih (a + 1) (s.setReg r (s.byteAt a))
    · simp only [loadRegs, memRead8_error ha, replaceSt_raiseExec]

theorem skipIf_setSt (s : State) (b : Byte) (c : Bool) : (s.setSt b).skipIf c = (s.skipIf c).setSt b := by
  simp only [skipIf_eq]; rfl

theorem skipOnKey_setSt (w : Word) (x : Reg) (down : Bool) (s : State) (b : Byte) :
    skipOnKey w x down (s.setSt b) = replaceSt b (skipOnKey w x down s) := by
  cases hk : keyOf (s.reg x) with
  | none => rw [skipOnKey_of_no_key hk, replaceSt_raiseExec]; exact skipOnKey_of_no_key (s := s.setSt b) hk w down
  | some k =>
    rw [skipOnKey_of_key hk, replaceSt_next, ← skipIf_setSt]
    exact skipOnKey_of_key (s := s.setSt b) hk w down

theorem exec_ldVxK_setSt (x : Reg) (s : State) (b : Byte) :
    exec (.ldVxK x) (s.setSt b) = replaceSt b (exec (.ldVxK x) s) := by
  cases hlatch : s.latch with
  | none => rw [exec_ldVxK_of_no_latch hlatch]; exact exec_ldVxK_of_no_latch (s := s.setSt b) hlatch x
  | some k =>
    cases hk : s.isDown k with
    | true => rw [exec_ldVxK_of_held hlatch hk]; exact exec_ldVxK_of_held (s := s.setSt b) hlatch hk x
    | false => rw [exec_ldVxK_of_released hlatch hk]; exact exec_ldVxK_of_released (s := s.setSt b) hlatch hk x

theorem exec_drw_setSt (x y : Reg) (n : Nibble) (s : State) (b : Byte) :
    exec (.drw x y n) (s.setSt b) = replaceSt b (exec (.drw x y n) s) := by
  have hread : readBytes (s.setSt b) n.toNat ((s.setSt b).effAddr 0) = readBytes s n.toNat (s.effAddr 0) := by
    simp only [readBytes_eq]; rfl
  cases h : readBytes s n.toNat (s.effAddr 0) with
  | error a =>
    rw [exec_drw_of_read_error h, replaceSt_raiseExec]
    exact exec_drw_of_read_error (hread.trans h)
  | ok rows => rw [exec_drw_of_read h]; exact exec_drw_of_read (hread.trans h)

/-- What Fx55 and Fx65 do after the last access (R124, R125). -/
def moveIPastBlock (x : Reg) (s : State) : Result := .next (s.setI (s.iPastBlock x))

/-- Every instruction but Fx18 does the same whatever ST is, and leaves ST as it was. -/
theorem exec_setSt {i : Instr} (hi : ∀ x, i ≠ .ldStVx x) (s : State) (b : Byte) :
    exec i (s.setSt b) = replaceSt b (exec i s) := by
  cases i with
  | ldStVx x => exact absurd rfl (hi x)
  | ret =>
    simp only [exec, execRet, popToPc, State.setSt_stack]
    cases s.stack with
    | nil => exact (replaceSt_raiseExec b _ _ s).symm
    | cons a rest => rfl
  | call nnn =>
    have hfull : (s.setSt b).stackFull = s.stackFull := rfl
    cases h : s.stackFull with
    | false => rw [exec_call_of_not_full h, exec_call_of_not_full (hfull.trans h)]; rfl
    | true => rw [exec_call_of_full h, exec_call_of_full (hfull.trans h)]; rfl
  | seI x kk | sneI x kk | seR x y | sneR x y => exact congrArg Host.Outcome.next (skipIf_setSt s b _)
  | drw x y n => exact exec_drw_setSt x y n s b
  | skp x | sknp x => exact skipOnKey_setSt _ x _ s b
  | ldVxK x => exact exec_ldVxK_setSt x s b
  | ldB x => exact storeBytes_setSt _ _ _ s b
  | stRegs x =>
    exact (congrArg (andThen · (moveIPastBlock x)) (storeBytes_setSt _ _ _ s b)).trans (andThen_replaceSt (fun _ => rfl) _)
  | ldRegs x =>
    exact (congrArg (andThen · (moveIPastBlock x)) (loadRegs_setSt _ _ _ s b)).trans (andThen_replaceSt (fun _ => rfl) _)
  | _ => rfl

/-- The execute phases of two machines that differ in ST end alike but for ST; Fx18 writes over the difference. -/
theorem replaceSt_exec (i : Instr) (s : State) (b : Byte) :
    replaceSt 0 (exec i (s.setSt b)) = replaceSt 0 (exec i s) := by
  by_cases hi : ∃ x, i = .ldStVx x
  · obtain ⟨x, rfl⟩ := hi; rfl
  · rw [exec_setSt fun x e => hi ⟨x, e⟩, replaceSt_replaceSt]

theorem replaceSt_tickAfter {r q : Result} (h : replaceSt 0 r = replaceSt 0 q) :
    replaceSt 0 (tickAfter r) = replaceSt 0 (tickAfter q) := by
  have hclear (p : Result) : replaceSt 0 (tickAfter p) = replaceSt 0 (tickAfter (replaceSt 0 p)) := by
    cases p with
    | next s => rfl
    | fault f => exact (replaceSt_replaceSt 0 0 (.fault f)).symm
    | refused e => rfl
  rw [hclear r, h, ← hclear q]

theorem replaceSt_step (s : State) (b : Byte) : replaceSt 0 (step (s.setSt b)) = replaceSt 0 (step s) := by
  have hfetch : fetch (s.setSt b) = fetch s := fetch_congr rfl fun _ => rfl
  simp only [step, State.setSt_halt, hfetch]
  cases s.halt with
  | some r => rfl
  | none =>
    cases fetch s with
    | error a => rfl
    | ok w =>
      simp only [cycleOf]
      cases decodeWord w with
      | error e => rfl
      | ok i => exact replaceSt_tickAfter (replaceSt_exec i s.advancePc b)

theorem eq_setSt_of_sameButSt {s t : State} (h : SameButSt s t) : t = s.setSt t.st :=
  calc t = (t.setSt 0).setSt t.st := rfl
    _ = (s.setSt 0).setSt t.st := congrArg (State.setSt · t.st) h.symm

/-- Settles O23: the second machine is the first with another value of ST. -/
theorem soundTimerIsNeverRead : Obligations.SoundTimerIsNeverRead := by
  intro s t h
  rw [eq_setSt_of_sameButSt h]
  exact sameOutcomeButSt_of_replaceSt (replaceSt_step s t.st).symm

end Sys2Proof.Machine

/-! ## The canonical form determines the memory (spec/10_state.md R19, spec/20_memory.md R40) -/

namespace Sys2Proof.Machine

variable {font : Font}

theorem Memory.read_head (c : Host.Cell) (m : Memory) : Memory.read font (c :: m) c.1 = c.2 := if_pos rfl

theorem Memory.wf_tail {c : Host.Cell} {m : Memory} (h : Memory.wf font (c :: m)) : Memory.wf font m := by
  obtain ⟨hrising, hlisted⟩ := h
  exact ⟨hrising.of_cons, fun d hd => hlisted d (List.mem_cons_of_mem c hd)⟩

/-- The first listed address reads otherwise than its reset contents, every address below it as them. -/
theorem Memory.not_lt_head {c : Host.Cell} {m k : Memory} (hm : Memory.wf font (c :: m))
    (hread : Memory.read font (c :: m) c.1 = Memory.read font k c.1) : ¬ ∀ d ∈ k, c.1 < d.1 := by
  intro hbelow
  obtain ⟨-, hlisted⟩ := hm
  obtain ⟨-, hne⟩ := hlisted c List.mem_cons_self
  rw [Memory.read_head, Memory.read_below font hbelow] at hread
  exact hne hread

/-- At the head's address both rising tails read as the reset contents, elsewhere as the whole lists. -/
theorem Memory.read_tail_congr {c : Host.Cell} {m k : Memory} (hm : Memory.wf font (c :: m))
    (hk : Memory.wf font (c :: k)) (hread : ∀ a, Memory.read font (c :: m) a = Memory.read font (c :: k) a) (a : Nat) :
    Memory.read font m a = Memory.read font k a := by
  obtain ⟨hm_rising, -⟩ := hm
  obtain ⟨hk_rising, -⟩ := hk
  rcases eq_or_ne c.1 a with rfl | hne
  · rw [Memory.read_below font fun _ he => List.rel_of_pairwise_cons hm_rising he,
      Memory.read_below font fun _ he => List.rel_of_pairwise_cons hk_rising he]
  · have h := hread a
    rwa [Memory.read, Memory.read, if_neg hne, if_neg hne] at h

/-- What is below the first address of a rising list is below all of them. -/
theorem Memory.lt_of_lt_head {a : Nat} {d : Host.Cell} {k : Memory} (hk : Memory.wf font (d :: k)) (h : a < d.1) :
    ∀ e ∈ d :: k, a < e.1 := by
  obtain ⟨hrising, -⟩ := hk
  exact List.forall_mem_cons.mpr ⟨h, fun e he => Nat.lt_trans h (List.rel_of_pairwise_cons hrising he)⟩

/-- Settles O27: the smaller of two different first addresses would read differently, and so on down the lists. -/
theorem canonicalMemoriesAreEqual : Obligations.CanonicalMemoriesAreEqual := by
  intro font m k hm hk hread
  induction m generalizing k with
  | nil =>
    cases k with
    | nil => rfl
    | cons d k => exact absurd (by simp) (Memory.not_lt_head hk (hread d.1).symm)
  | cons c m ih =>
    cases k with
    | nil => exact absurd (by simp) (Memory.not_lt_head hm (hread c.1))
    | cons d k =>
      rcases Nat.lt_trichotomy c.1 d.1 with hlt | haddr | hlt
      · exact absurd (Memory.lt_of_lt_head hk hlt) (Memory.not_lt_head hm (hread c.1))
      · have hbyte : c.2 = d.2 := by
          have h := hread c.1
          rwa [Memory.read_head, haddr, Memory.read_head] at h
        obtain rfl : c = d := Prod.ext haddr hbyte
        rw [ih k (Memory.wf_tail hm) (Memory.wf_tail hk) (Memory.read_tail_congr hm hk hread)]
      · exact absurd (Memory.lt_of_lt_head hm hlt) (Memory.not_lt_head hk (hread d.1).symm)

end Sys2Proof.Machine

/-! ## Random byte, index register (spec/42_alu.md R111, spec/43_index_memory.md R121, R122) -/

namespace Sys2Proof.Machine

/-- Settles O39: one draw, then one register write. -/
theorem randomByteIsMasked : Obligations.RandomByteIsMasked := by
  intro x kk s
  have hreg : (s.afterDraw.setReg x (s.draw8 &&& kk)).reg x = Config.rnd s.draws &&& kk := reg_setReg_self _ x _
  refine ⟨_, rfl, hreg, fun k hk => ?_, rfl,
    (frame_afterDraw s).append (frame_setReg _ (List.mem_singleton_self x) _)⟩
  rw [hreg, BitVec.getLsbD_and, hk, Bool.and_false]

/-- The greatest glyph address is 255 · 5 + 0x50, so neither the product nor the sum wraps. -/
theorem glyphAddr_toNat (b : Byte) : (glyphAddr b).toNat = b.toNat * 5 + 0x50 := by
  have hb := b.isLt
  have hfive : (5 : Word).toNat = 5 := rfl
  rw [glyphAddr, BitVec.toNat_add, BitVec.toNat_mul, zext16_toNat, BitVec.toNat_ofNat, hfive]
  unfold fontBase
  omega

/-- Settles O41: each of the two is one write of I. -/
theorem indexAddAndGlyphAddress : Obligations.IndexAddAndGlyphAddress := by
  intro x s
  have hsum : (s.i + zext16 (s.reg x)).toNat = (s.i.toNat + (s.reg x).toNat) % 65536 := by
    rw [BitVec.toNat_add, zext16_toNat]
  exact ⟨⟨_, rfl, hsum, frame_setI s _⟩, ⟨_, rfl, glyphAddr_toNat _, frame_setI s _⟩⟩

end Sys2Proof.Machine

/-! ## Blocks that run past the end (spec/43_index_memory.md R126), stored code (spec/20_memory.md R56) -/

namespace Sys2Proof.Machine

/-- HALT alone is the frame of a fault. -/
theorem frame_setHalt (s : State) (h : Option FaultRecord) : Frame [] [.halt] s (s.setHalt h) := by
  refine ⟨fun r _ => s.reg_setHalt r h, fun p hp => ?_⟩
  cases p with
  | halt => exact absurd (List.mem_singleton_self Part.halt) hp
  | key => exact fun k => s.isDown_setHalt k h
  | mem => exact fun a => s.byteAt_setHalt a h
  | _ => exact rfl

theorem frame_haltedBy (s : State) (c : Cause) (w : Word) : Frame [] [.halt] s (s.haltedBy c w) := frame_setHalt s _

/-- A block store at I that runs past the end raises there: the bytes below 4096 have landed, no other byte changed. -/
theorem storeBytes_of_overrun (w : Word) (bs : List Byte) {s : State} (hm : s.mem.Pairwise fun c d => c.1 < d.1)
    (hne : bs ≠ []) (hover : memSize < s.effAddr bs.length) :
    ∃ m, storeBytes w bs (s.effAddr 0) s =
        raiseExec w (.memOutOfBounds (firstOutOfRange (s.effAddr 0))) (s.setMem m) ∧
      (∀ k (hk : k < bs.length), s.effAddr k < memSize → (s.setMem m).byteAt (s.effAddr k) = bs[k]) ∧
      ∀ a, (∀ k < bs.length, a ≠ s.effAddr k) → (s.setMem m).byteAt a = s.byteAt a := by
  obtain ⟨m, -, -, hread, hstore⟩ := storeBytes_spec w bs (s.effAddr 0) s hm
  have hbyte (a : Nat) : (s.setMem m).byteAt a = _ := hread a
  unfold State.effAddr at *
  have hpast : ¬ (bs = [] ∨ s.i.toNat + 0 + bs.length ≤ memSize) := by
    rintro (hnil | hfit)
    · exact hne hnil
    · omega
  refine ⟨m, hstore.trans (if_neg hpast), fun k hk hin => ?_, fun a ha => ?_⟩
  · rw [hbyte, if_pos (by omega)]
    simp [hk]
  · have hout : ¬ (s.i.toNat + 0 ≤ a ∧ a < s.i.toNat + 0 + bs.length ∧ a < memSize) := by
      intro hin
      exact ha (a - s.i.toNat) (by omega) (by omega)
    rw [hbyte, if_neg hout]

/-- A load of V0 to Vx from I that runs past the end raises there: the registers whose bytes exist are loaded. -/
theorem loadRegs_of_overrun (w : Word) {x : Reg} {s : State} (hover : memSize ≤ s.effAddr x.val) :
    ∃ u, loadRegs w (regsUpTo x) (s.effAddr 0) s =
        raiseExec w (.memOutOfBounds (firstOutOfRange (s.effAddr 0))) u ∧
      u.pc = s.pc ∧
      (∀ r, r ≤ x → u.reg r = if s.effAddr r.val < memSize then s.byteAt (s.effAddr r.val) else s.reg r) ∧
      Frame (regsUpTo x) [] s u := by
  obtain ⟨u, hu, hother, hloaded, hload⟩ := loadRegs_spec w (regsUpTo x) (regsUpTo_nodup x) (s.effAddr 0) s
  have hpast : ¬ (regsUpTo x = [] ∨ s.effAddr 0 + (regsUpTo x).length ≤ memSize) := by
    rw [← List.length_eq_zero_iff, regsUpTo_length]
    unfold State.effAddr at *
    omega
  refine ⟨u, hload.trans (if_neg hpast), by rw [hu], fun r hr => ?_, frame_of_eq_but_v hu hother⟩
  have hlen : r.val < (regsUpTo x).length := by
    rw [regsUpTo_length]
    exact Nat.lt_succ_of_le hr
  have h := hloaded r.val hlen
  rwa [regsUpTo_getElem] at h

/-- Settles O45: two block stores and a block load, each of which raises at the first address that does not exist. -/
theorem blockTransfersFaultPartway : Obligations.BlockTransfersFaultPartway := by
  intro x s hm
  obtain ⟨hrising, -⟩ := hm
  have hlen : ((regsUpTo x).map s.reg).length = x.val + 1 := by rw [List.length_map, regsUpTo_length]
  refine ⟨fun hover => ?_, fun hover => ?_, fun hover => ?_⟩
  · obtain ⟨m, hraise, hbytes, hother⟩ := storeBytes_of_overrun (encode (.ldB x)) (bcdDigits (s.reg x)) hrising
      (List.cons_ne_nil _ _) (Nat.lt_succ_of_le hover)
    exact ⟨_, hraise, rfl, hbytes, hother, (frame_setMem s m).append (frame_haltedBy _ _ _)⟩
  · obtain ⟨m, hraise, hbytes, hother⟩ := storeBytes_of_overrun (encode (.stRegs x)) ((regsUpTo x).map s.reg) hrising
      (List.ne_nil_of_length_eq_add_one hlen) (by rw [hlen]; exact Nat.lt_succ_of_le hover)
    have hexec := exec_stRegs_of_raise hraise
    refine ⟨_, hexec, rfl, fun r hr hin => ?_, fun a ha => ?_, (frame_setMem s m).append (frame_haltedBy _ _ _)⟩
    · have hr' : r.val < ((regsUpTo x).map s.reg).length := by rw [hlen]; exact Nat.lt_succ_of_le hr
      refine (hbytes r.val hr' hin).trans ?_
      rw [List.getElem_map, regsUpTo_getElem]
    · exact hother a fun k hk => ha k (by omega)
  · obtain ⟨u, hraise, hpc, hregs, hframe⟩ := loadRegs_of_overrun (encode (.ldRegs x)) hover
    have hexec := exec_ldRegs_of_raise hraise
    refine ⟨_, hexec, ?_, hregs, (hframe.append (frame_haltedBy _ _ _)).mono (by simp) (by simp)⟩
    rw [← hpc]; rfl

/-- Settles O28: the store completed, so both bytes exist and hold the two registers. -/
theorem storedBytesAreFetched : Obligations.StoredBytesAreFetched := by
  intro x s t r q hm h hq hqr hpc
  have hfit : s.effAddr x.val < 4096 := by
    by_contra hover
    obtain ⟨-, hfault, -⟩ := blockTransfersFaultPartway x s hm
    obtain ⟨u, hu, -⟩ := hfault (Nat.le_of_not_lt hover)
    cases h.symm.trans hu
  obtain ⟨t', ht', hbytes, -⟩ := registerBlockIsStored x s hm hfit
  cases h.symm.trans ht'
  have hqx : q.val ≤ x.val := hq
  have hr : r ≤ x := Fin.le_def.mpr (by omega)
  have hpc' : t.pc.toNat + 1 = s.effAddr q.val := by rw [hpc, hqr]; rfl
  have hend : s.effAddr q.val ≤ s.effAddr x.val := Nat.add_le_add_left hqx _
  rw [fetch_ok (by rw [hpc']; exact Nat.lt_of_le_of_lt hend hfit), hpc', hpc, hbytes r hr, hbytes q hq]

end Sys2Proof.Machine

/-! ## Drawing (spec/44_display.md R134 to R139) -/

namespace Sys2Proof.Machine

/-! ### The pixels of a sprite -/

theorem mem_rowPixels {w x0 y : Nat} {b : Byte} {px py : Nat} :
    (px, py) ∈ rowPixels w x0 y b ↔ py = y ∧ px < w ∧ x0 ≤ px ∧ px < x0 + 8 ∧ b.getLsbD (7 - (px - x0)) = true := by
  have hcolumns : [0, 1, 2, 3, 4, 5, 6, 7] = List.range 8 := rfl
  simp only [rowPixels, hcolumns, List.mem_map, List.mem_filter, List.mem_range, Bool.and_eq_true, decide_eq_true_eq,
    Prod.mk.injEq]
  constructor
  · rintro ⟨c, ⟨hc, hw, hbit⟩, rfl, rfl⟩
    rw [Nat.add_sub_cancel_left]
    exact ⟨rfl, hw, by omega, by omega, hbit⟩
  · rintro ⟨rfl, hw, hlow, hhigh, hbit⟩
    exact ⟨px - x0, ⟨by omega, by omega, hbit⟩, by omega, rfl⟩

/-- Row by row from `y0`: the bit of byte `py - y0`, inside the display. -/
theorem mem_spritePixels {w h x0 y0 : Nat} {bs : List Byte} {px py : Nat} :
    (px, py) ∈ spritePixels w h x0 y0 bs ↔
      px < w ∧ py < h ∧ x0 ≤ px ∧ px < x0 + 8 ∧ y0 ≤ py ∧
        ∃ b, bs[py - y0]? = some b ∧ b.getLsbD (7 - (px - x0)) = true := by
  induction bs generalizing y0 with
  | nil => simp [spritePixels]
  | cons b bs ih =>
    have hrow : (px, py) ∈ (if y0 < h then rowPixels w x0 y0 b else []) ↔
        y0 < h ∧ (px, py) ∈ rowPixels w x0 y0 b := by
      split <;> simp [*]
    rw [spritePixels, List.mem_append, hrow, mem_rowPixels, ih]
    rcases Nat.lt_trichotomy py y0 with hlt | rfl | hgt
    · constructor
      · rintro (⟨-, rfl, -⟩ | ⟨-, -, -, -, hle, -⟩) <;> omega
      · rintro ⟨-, -, -, -, hle, -⟩; omega
    · simp only [Nat.sub_self, List.getElem?_cons_zero, Option.some.injEq, exists_eq_left', true_and, le_refl,
        Nat.not_succ_le_self, false_and, and_false, or_false]
      tauto
    · obtain ⟨k, hk⟩ : ∃ k, py - y0 = k + 1 := ⟨py - y0 - 1, by omega⟩
      have hk' : py - (y0 + 1) = k := by omega
      have hne : py ≠ y0 := by omega
      have hle : y0 ≤ py := by omega
      have hle' : y0 + 1 ≤ py := by omega
      rw [hk, hk', List.getElem?_cons_succ]
      simp only [hne, hle, hle', false_and, and_false, true_and, false_or]

theorem rowPixels_nodup (w x0 y : Nat) (b : Byte) : (rowPixels w x0 y b).Nodup := by
  refine List.Nodup.map ?_ ((by decide : [0, 1, 2, 3, 4, 5, 6, 7].Nodup).filter _)
  intro c d hcd
  exact Nat.add_left_cancel (congrArg Prod.fst hcd)

theorem spritePixels_nodup (w h x0 y0 : Nat) (bs : List Byte) : (spritePixels w h x0 y0 bs).Nodup := by
  induction bs generalizing y0 with
  | nil => exact List.nodup_nil
  | cons b bs ih =>
    refine List.nodup_append.mpr ⟨?_, ih (y0 + 1), ?_⟩
    · split
      · exact rowPixels_nodup w x0 y0 b
      · exact List.nodup_nil
    · rintro ⟨px, py⟩ hrow q hrest rfl
      obtain ⟨-, -, -, -, hbelow, -⟩ := mem_spritePixels.mp hrest
      split at hrow
      · obtain ⟨hy, -⟩ := mem_rowPixels.mp hrow
        omega
      · exact absurd hrow List.not_mem_nil

theorem drawPixels_eq (s : State) (x y : Reg) (rows : List Byte) :
    s.drawPixels x y rows = spritePixels s.cfg.displayW s.cfg.displayH (s.spriteX x) (s.spriteY y) rows := rfl

theorem drawPixels_nodup (s : State) (x y : Reg) (rows : List Byte) : (s.drawPixels x y rows).Nodup :=
  spritePixels_nodup ..

/-- The sprite's bytes at I, in reading order. -/
def State.spriteRows (s : State) (n : Nibble) : List Byte := (List.range' (s.effAddr 0) n.toNat).map s.byteAt

theorem spriteRows_getElem? (s : State) (n : Nibble) (k : Nat) :
    (s.spriteRows n)[k]? = if k < n.toNat then some (s.byteAt (s.effAddr k)) else none := by
  rw [State.spriteRows, List.getElem?_map]
  split
  · next hk => rw [List.getElem?_range' hk]; simp [State.effAddr]
  · next hk => rw [List.getElem?_eq_none (by simpa using hk)]; rfl

/-- The pixels DRW toggles are those of the display whose sprite bit is set. -/
theorem mem_drawPixels {s : State} {x y : Reg} {n : Nibble} {px py : Nat} :
    (px, py) ∈ s.drawPixels x y (s.spriteRows n) ↔
      px < s.cfg.displayW ∧ py < s.cfg.displayH ∧ s.spriteBit x y n px py = true := by
  rw [drawPixels_eq, mem_spritePixels]
  simp only [State.spriteBit, Bool.and_eq_true, decide_eq_true_eq, spriteRows_getElem?, Option.ite_none_right_eq_some,
    Option.some.injEq]
  constructor
  · rintro ⟨hw, hh, hx, hx8, hy, b, ⟨hn, rfl⟩, hbit⟩
    exact ⟨hw, hh, ⟨hx, hx8, hy, by omega⟩, hbit⟩
  · rintro ⟨hw, hh, ⟨hx, hx8, hy, hn⟩, hbit⟩
    exact ⟨hw, hh, hx, hx8, hy, _, ⟨by omega, rfl⟩, hbit⟩

/-! ### One draw -/

theorem exec_drw_of_fits {s : State} {n : Nibble} (hfit : ∀ k < n.toNat, s.effAddr k < memSize) (x y : Reg) :
    exec (.drw x y n) s = .next (drawSprite x y (s.spriteRows n) s) := by
  have hin : n.toNat = 0 ∨ s.effAddr 0 + n.toNat ≤ memSize := by
    rcases Nat.eq_zero_or_pos n.toNat with hzero | hpos
    · exact .inl hzero
    · have hlast := hfit (n.toNat - 1) (by omega)
      unfold State.effAddr at *
      omega
  exact exec_drw_of_read ((readBytes_eq s _ _).trans (if_pos hin))

/-- Settles O49: the reads come first, and the one that fails raises. -/
theorem drawFaultsBeforeDrawing : Obligations.DrawFaultsBeforeDrawing := by
  rintro x y n s ⟨k, hk, hpast⟩
  have hout : ¬ (n.toNat = 0 ∨ s.effAddr 0 + n.toNat ≤ memSize) := by
    unfold State.effAddr memSize at *
    omega
  exact exec_drw_of_read_error ((readBytes_eq s _ _).trans (if_neg hout))

/-- A grid after drawing: each pixel of the sprite inverted, and whether one of them was on. -/
theorem drawSprite_spec (x y : Reg) (n : Nibble) {s : State} (hs : s.Inv) :
    (∀ px py, px < s.cfg.displayW → py < s.cfg.displayH →
      (drawSprite x y (s.spriteRows n) s).pixel px py = (s.pixel px py ^^ s.spriteBit x y n px py)) ∧
    ∃ hit, (drawSprite x y (s.spriteRows n) s).reg VF = flagOf hit ∧
      (hit = true ↔ ∃ px py, px < s.cfg.displayW ∧ py < s.cfg.displayH ∧ s.pixel px py = true ∧
        s.spriteBit x y n px py = true) := by
  obtain ⟨-, -, hshaped, -⟩ := hs
  have hin : ∀ p ∈ s.drawPixels x y (s.spriteRows n), p.1 < s.cfg.displayW ∧ p.2 < s.cfg.displayH := by
    rintro ⟨px, py⟩ hp
    obtain ⟨hw, hh, -⟩ := mem_drawPixels.mp hp
    exact ⟨hw, hh⟩
  obtain ⟨-, hpixel, hany⟩ := flipAll_spec _ (drawPixels_nodup s x y _) hin s.pix hshaped false
  refine ⟨fun px py hw hh => (hpixel px py).trans ?_, _, reg_setReg_self _ VF _, ?_⟩
  · refine congrArg (s.pixel px py ^^ ·) (Bool.eq_iff_iff.mpr ?_)
    rw [decide_eq_true_eq, mem_drawPixels]
    exact ⟨fun ⟨_, _, hbit⟩ => hbit, fun hbit => ⟨hw, hh, hbit⟩⟩
  · rw [hany, Bool.false_or, List.any_eq_true]
    constructor
    · rintro ⟨⟨px, py⟩, hmem, hon⟩
      obtain ⟨hw, hh, hbit⟩ := mem_drawPixels.mp hmem
      exact ⟨px, py, hw, hh, hon, hbit⟩
    · rintro ⟨px, py, hw, hh, hon, hbit⟩
      exact ⟨(px, py), mem_drawPixels.mpr ⟨hw, hh, hbit⟩, hon⟩

/-- Settles O48: the flips are of the display's pixels with a set sprite bit, and the flag says whether one was on. -/
theorem drawTogglesSpriteBits : Obligations.DrawTogglesSpriteBits := by
  intro x y n s hs hfit
  obtain ⟨hpixel, hit, hVF, hhit⟩ := drawSprite_spec x y n hs
  refine ⟨_, exec_drw_of_fits hfit x y, hpixel, fun hcoll => ?_, fun hnone => ?_, rfl, frame_drawSprite x y _ s⟩
  · rw [hVF, hhit.mpr hcoll]; rfl
  · have hfalse : hit = false := by
      refine Bool.eq_false_iff.mpr fun htrue => ?_
      obtain ⟨px, py, hw, hh, hon, hbit⟩ := hhit.mp htrue
      rw [hnone px py hw hh hon] at hbit
      cases hbit
    rw [hVF, hfalse]; rfl

/-! ### Two draws -/

theorem Grid.pixel_eq_getElem {g : Grid} {px py : Nat} (hy : py < g.length) (hx : px < (g[py]).length) :
    Grid.pixel g px py = g[py][px] := by
  simp [Grid.pixel, List.getElem?_eq_getElem hy, List.getElem?_eq_getElem hx]

/-- Grids of one size with the same pixels are equal. -/
theorem Grid.ext_pixel {w h : Nat} {g g' : Grid} (hg : Grid.shaped w h g) (hg' : Grid.shaped w h g')
    (hpixel : ∀ px py, px < w → py < h → Grid.pixel g px py = Grid.pixel g' px py) : g = g' := by
  obtain ⟨hlen, hrow⟩ := hg
  obtain ⟨hlen', hrow'⟩ := hg'
  refine List.ext_getElem (hlen.trans hlen'.symm) fun py hy hy' => ?_
  have hw := hrow _ (List.getElem_mem hy)
  have hw' := hrow' _ (List.getElem_mem hy')
  refine List.ext_getElem (hw.trans hw'.symm) fun px hx hx' => ?_
  rw [← Grid.pixel_eq_getElem hy hx, ← Grid.pixel_eq_getElem hy' hx']
  exact hpixel px py (hw ▸ hx) (hlen ▸ hy)

/-- The sprite depends on its place, I and memory. -/
theorem spriteBit_congr {s t : State} {x y : Reg} (hx : t.spriteX x = s.spriteX x) (hy : t.spriteY y = s.spriteY y)
    (hi : t.i = s.i) (hbyte : ∀ a, t.byteAt a = s.byteAt a) (n : Nibble) (px py : Nat) :
    t.spriteBit x y n px py = s.spriteBit x y n px py := by
  simp only [State.spriteBit, State.effAddr, hx, hy, hi, hbyte]

/-- Settles O50: the second draw inverts the same pixels, and finds on those that the first one turned on. -/
theorem drawTwiceRestoresDisplay : Obligations.DrawTwiceRestoresDisplay := by
  intro x y n s t hs h hx hy
  have hfit : ∀ k < n.toNat, s.effAddr k < 4096 := by
    by_contra hnot
    push Not at hnot
    cases h.symm.trans (drawFaultsBeforeDrawing x y n s hnot)
  obtain ⟨t', ht', hpixel, -, -, -, -, hpart⟩ := drawTogglesSpriteBits x y n s hs hfit
  cases h.symm.trans ht'
  have hi : t.i = s.i := hpart .i (by simp)
  have hcfg : t.cfg = s.cfg := hpart .cfg (by simp)
  have hbyte : ∀ a, t.byteAt a = s.byteAt a := hpart .mem (by simp)
  have hbit := spriteBit_congr hx hy hi hbyte n
  have ht : t.Inv := exec_keeps_inv h hs
  have hfit' : ∀ k < n.toNat, t.effAddr k < 4096 := by simpa only [State.effAddr, hi] using hfit
  obtain ⟨u, hu, hpixel', hcoll, -⟩ := drawTogglesSpriteBits x y n t ht hfit'
  rw [hcfg] at hpixel' hcoll
  refine ⟨u, hu, ?_, ?_⟩
  · obtain ⟨-, -, hshaped, -⟩ := hs
    obtain ⟨-, -, hshaped', -⟩ := exec_keeps_inv hu ht
    rw [exec_cfg hu, hcfg] at hshaped'
    refine Grid.ext_pixel hshaped' hshaped fun px py hw hh => ?_
    calc u.pixel px py
        = (t.pixel px py ^^ t.spriteBit x y n px py) := hpixel' px py hw hh
      _ = ((s.pixel px py ^^ s.spriteBit x y n px py) ^^ s.spriteBit x y n px py) := by
        rw [hpixel px py hw hh, hbit]
      _ = s.pixel px py := by rw [Bool.xor_assoc, Bool.xor_self, Bool.xor_false]
  · rintro ⟨px, py, hw, hh, hoff, hset⟩
    refine hcoll ⟨px, py, hw, hh, ?_, ?_⟩
    · rw [hpixel px py hw hh, hoff, hset]; rfl
    · rw [hbit, hset]

end Sys2Proof.Machine

/-! ## Keys and timers (spec/45_keypad_timers.md R140 to R150) -/

namespace Sys2Proof.Machine

/-! ### Key skips -/

/-- Settles O51: SKP and SKNP are one operation, told which state of the key to skip on. -/
theorem keySkipsFollowTheKey : Obligations.KeySkipsFollowTheKey := by
  refine fun x s => ⟨fun k hk => ?_, fun hx => ?_⟩
  · have hkey : keyOf (s.reg x) = some k := keyOf_eq_some_iff.mpr hk
    refine ⟨⟨_, skipOnKey_of_key hkey _ true, ?_, frame_skipIf s _⟩,
      ⟨_, skipOnKey_of_key hkey _ false, ?_, frame_skipIf s _⟩⟩ <;> cases s.isDown k <;> rfl
  · have hkey : keyOf (s.reg x) = none := keyOf_eq_none_iff.mpr hx
    exact ⟨skipOnKey_of_no_key hkey _ true, skipOnKey_of_no_key hkey _ false⟩

/-! ### The key wait -/

/-- R142, D10: the key found is down and no lower one is. -/
theorem firstDown_eq_some {s : State} {k : Key} (hk : s.isDown k = true) (hlow : ∀ j, j < k → s.isDown j = false) :
    s.firstDown = some k := by
  have hkeys : allKeys = List.finRange 16 := by decide
  rw [State.firstDown, hkeys, List.find?_eq_some_iff_getElem]
  refine ⟨hk, k.val, by simp, by simp, fun j hj => ?_⟩
  simp [hlow ⟨j, Nat.lt_trans hj k.isLt⟩ hj]

theorem firstDown_eq_none {s : State} (h : ∀ k, s.isDown k = false) : s.firstDown = none :=
  List.find?_eq_none.mpr fun k _ => by simp [h k]

theorem byteOfKey_toNat (k : Key) : (byteOfKey k).toNat = k.val :=
  Nat.mod_eq_of_lt (Nat.lt_trans k.isLt (by decide))

/-- Settles O52: nothing latched, the latched key down, the latched key up. -/
theorem keyWaitLatchesThenReleases : Obligations.KeyWaitLatchesThenReleases := by
  refine fun x s => ⟨fun hlatch => ?_, fun k hlatch hk => ?_, fun k hlatch hk => ?_⟩
  · exact ⟨_, exec_ldVxK_of_no_latch hlatch x, rfl, fun h => firstDown_eq_none h, fun k hk => firstDown_eq_some hk,
      ((frame_setLatch s _).append (frame_setPc _ _)).mono (List.nil_subset _) (by simp)⟩
  · exact ⟨_, exec_ldVxK_of_held hlatch hk x, rfl, frame_setPc s _⟩
  · refine ⟨_, exec_ldVxK_of_released hlatch hk x, ?_, rfl,
      (frame_setLatch s none).append (frame_setReg _ (List.mem_singleton_self x) _)⟩
    rw [reg_setReg_self, byteOfKey_toNat]

/-- The execute phase of a wait with no released key moves PC back and touches the latch at most. -/
theorem exec_ldVxK_of_waiting {s : State} (hheld : ∀ k, s.latch = some k → s.isDown k = true) (x : Reg) :
    ∃ t, exec (.ldVxK x) s = .next t ∧ t.pc = s.pc - 2 ∧ Frame [] [.pc, .latch] s t := by
  obtain ⟨hfree, hdown, -⟩ := keyWaitLatchesThenReleases x s
  cases hlatch : s.latch with
  | none =>
    obtain ⟨t, ht, hpc, -, -, hframe⟩ := hfree hlatch
    exact ⟨t, ht, hpc, hframe⟩
  | some k =>
    obtain ⟨t, ht, hpc, hframe⟩ := hdown k hlatch (hheld k hlatch)
    exact ⟨t, ht, hpc, hframe.mono (List.nil_subset _) (by simp)⟩

/-- Settles O53: PC goes forward in the fetch and back in the execute phase, so the fetch finds the same word. -/
theorem waitingCycleRepeats : Obligations.WaitingCycleRepeats := by
  intro x s hhalt hnext hheld
  obtain ⟨w, hfetch, hdec⟩ := nextInstr_eq_some hnext
  obtain ⟨u, hexec, hback, hframe⟩ := exec_ldVxK_of_waiting (s := s.advancePc) hheld x
  have hstep : step s = .next u.tickTimers :=
    step_eq_next.mpr (.inr ⟨hhalt, w, hfetch, .inl ⟨_, u, hdec, hexec, rfl⟩⟩)
  have hpc : u.tickTimers.pc = s.pc := hback.trans (advancePc_pc_sub_two s)
  have ⟨_, hpart⟩ := hframe
  have hdt : u.dt = s.dt := hpart .dt (by simp)
  have hst : u.st = s.st := hpart .st (by simp)
  have hbyte : ∀ a, u.tickTimers.byteAt a = s.byteAt a := hpart .mem (by simp)
  have hcycle : Frame [] [.pc, .latch, .dt, .st] s u.tickTimers :=
    (((frame_setPc s _).mono (List.nil_subset _) (List.cons_subset_cons _ (List.nil_subset _))).trans hframe).append (frame_tickTimers u)
  refine ⟨_, hstep, hpc, (nextInstr_congr hpc hbyte).trans hnext, ?_, ?_, hcycle.erase hpc⟩
  · rw [tickTimers_dt, tick_toNat, hdt]
  · rw [tickTimers_st, tick_toNat, hst]

/-! ### Timer moves -/

/-- Settles O54: each of the three is one write. -/
theorem timerMovesCopy : Obligations.TimerMovesCopy :=
  fun x s => ⟨⟨_, rfl, reg_setReg_self s x s.dt, frame_setReg s (List.mem_singleton_self x) _⟩,
    ⟨_, rfl, rfl, frame_setDt s _⟩, ⟨_, rfl, rfl, frame_setSt s _⟩⟩

end Sys2Proof.Machine

/-! ## Host transactions (spec/60_exceptions.md R174, spec/70_reset_and_hazards.md R180 to R184) -/

namespace Sys2Proof.Machine

theorem frame_setKey (s : State) (k : Key) (b : Bool) : Frame [] [.key] s (s.setKey k b) := by
  refine ⟨fun r _ => s.reg_setKey r k b, fun p hp => ?_⟩
  cases p with
  | key => exact absurd (List.mem_singleton_self Part.key) hp
  | mem => exact fun a => s.byteAt_setKey a k b
  | _ => exact rfl

/-- Both key events are this one write. -/
theorem setKey_spec (s : State) (k : Key) (b : Bool) :
    (s.setKey k b).isDown k = b ∧ (∀ j, j ≠ k → (s.setKey k b).isDown j = s.isDown j) ∧
      Frame [] [.key] s (s.setKey k b) := by
  refine ⟨?_, fun j hj => ?_, frame_setKey s k b⟩
  · rw [State.isDown_setKey, if_pos rfl]
  · rw [State.isDown_setKey, if_neg hj]

/-- Settles O55: key_down writes true, key_up false. -/
theorem keyEventsTouchOneKey : Obligations.KeyEventsTouchOneKey :=
  fun k s => ⟨⟨_, rfl, setKey_spec s k true⟩, ⟨_, rfl, setKey_spec s k false⟩⟩

/-- Settles O57: the length is looked at before anything is written. -/
theorem oversizeLoadHalts : Obligations.OversizeLoadHalts := by
  intro bytes s hlen
  have hload : transact (.load bytes) s = raise (.romTooLarge bytes.length) none none s :=
    if_neg (Nat.not_le.mpr hlen)
  exact ⟨_, hload, rfl, frame_setHalt s _, haltedCycleChangesNothing _ nofun⟩

/-! ### Reset -/

theorem resetByte_font (font : Font) (k : Nat) (hk : k < fontBytes) : resetByte font (fontBase + k) = font[k] := by
  have hin : fontBase ≤ fontBase + k ∧ fontBase + k < fontBase + fontBytes :=
    ⟨Nat.le_add_right _ _, Nat.add_lt_add_left hk _⟩
  simp only [resetByte, dif_pos hin, Nat.add_sub_cancel_left]

theorem resetByte_of_not_font (font : Font) {a : Nat} (h : a < fontBase ∨ fontBase + fontBytes ≤ a) :
    resetByte font a = 0 := by
  refine dif_neg ?_
  rintro ⟨hlow, hhigh⟩
  omega

theorem byteAt_hostReset (s : State) (a : Nat) : s.hostReset.byteAt a = resetByte s.cfg.font a := rfl

theorem reg_hostReset (s : State) (r : Reg) : s.hostReset.reg r = 0 := Vector.getElem_replicate r.isLt

theorem isDown_hostReset (s : State) (k : Key) : s.hostReset.isDown k = false := Vector.getElem_replicate k.isLt

theorem pixel_hostReset (s : State) (px py : Nat) : s.hostReset.pixel px py = false :=
  blankGrid_pixel s.cfg.displayW s.cfg.displayH px py

/-- Settles O58: no byte of memory is listed after a reset, so each holds its reset contents. -/
theorem resetSetsEveryElement : Obligations.ResetSetsEveryElement := by
  refine fun s => ⟨s.hostReset, rfl, rfl, reg_hostReset s, rfl, rfl, rfl, rfl, isDown_hostReset s, rfl,
    pixel_hostReset s, fun k hk => ?_, fun a ha => ?_, rfl, rfl, rfl, rfl⟩
  · rw [byteAt_hostReset]
    exact resetByte_font s.cfg.font k hk
  · rw [byteAt_hostReset]
    exact resetByte_of_not_font s.cfg.font ha

end Sys2Proof.Machine
